-- ==== Sys2Proof/Word.lean ====
section
/-! DEFINITION. The byte: the only datum of the block (00_scope.md R12, R13). -/

namespace Sys2Proof

/-- One byte: 8 bits, unsigned, bit 7 the most significant (R12). -/
abbrev Byte := BitVec 8

/-- `SHL1(a)` is `(2 * a) mod 256`: every bit moves one place up, bit 7 is lost, bit 0 becomes 0 (R13). -/
def shl1 (a : Byte) : Byte := a <<< 1

end Sys2Proof
end

