-- ==== Sys2Proof/Config.lean ====
section
/-! DEFINITION. The implementation parameters (00_scope.md R6 to R10; 93_implementation_defined.md U12, U13). -/

namespace Sys2Proof

/-- `STRATEGY` (R6): which of the two algorithms backs the Checksum Engine, fixed at construction. -/
inductive Strategy where
  | table
  | bitserial
  deriving DecidableEq, Repr

/-- `LEN_MIN` (R8): one type byte and one checksum byte. -/
def lenMin : Nat := 2

/-- The constraints on the open parameters: 0xC8 is a marker, 0x00, 0x01 and 0xFF are not (R7);
`LEN_MIN <= LEN_MAX <= min(255, FRAME_CAP - 2)` (R10); `FRAME_CAP <= 257` (R9). -/
def paramsOk (markers : List Byte) (frameCap lenMax : Nat) : Bool :=
  markers.contains 0xC8 && !markers.contains 0x00 && !markers.contains 0x01 && !markers.contains 0xFF &&
    decide (lenMin ≤ lenMax) && decide (lenMax ≤ 255) && decide (lenMax + 2 ≤ frameCap) && decide (frameCap ≤ 257)

/-- The parameters of one receiver instance. Parameter values outside their constraints are excluded by this
type (U13). `LEN_MAX` is a separate parameter, as R10 allows (log 3). -/
structure Config where
  /-- `MARKERS`, the allow-list (R7). -/
  markers  : List Byte
  /-- `FRAME_CAP`, the capacity of the frame buffer in bytes (R9). -/
  frameCap : Nat
  /-- `LEN_MAX`, the largest accepted length byte (R10). -/
  lenMax   : Nat
  /-- The constraints of R7, R9 and R10. -/
  ok       : paramsOk markers frameCap lenMax = true
  deriving DecidableEq, Repr

/-- The defaults of R7, R9 and R10: `MARKERS` is the set of 0xC8 alone, `FRAME_CAP` 64, `LEN_MAX` 62. -/
def defaultConfig : Config where
  markers  := [0xC8]
  frameCap := 64
  lenMax   := 62
  ok       := rfl

end Sys2Proof
end

