-- ==== Sys2Proof/Syntax.lean ====
section
/-! DEFINITION. The operations of the block, the operands they take and the transactions that carry them
(00_scope.md R5; 30_encoding.md R84, R87, R88, R90). -/

namespace Sys2Proof

/-- An opaque token naming a host-side handler (R11, 92_eei_decisions.md D10; log 11). -/
structure HandlerId where
  token : Nat
  deriving DecidableEq, Repr

/-- A reference to a `DATA` space (R50, R88): absent, or a buffer with the bytes the caller really owns. The
operand carries the bytes themselves, since the buffer does not change during an operation (R56; log 14). -/
inductive Data where
  | null
  | buffer (bytes : List Byte)
  deriving DecidableEq, Repr

/-- The values of the state register `st` in the source's order (R24). They select how the next input byte is
decoded (R84). -/
inductive RxState where
  | seekingMarker
  | readingLength
  | readingPayload
  | frameComplete
  deriving DecidableEq, Repr

/-- The six input-byte classes (R84). -/
inductive ByteClass where
  | marker
  | noise
  | len
  | badLen
  | body
  | last
  deriving DecidableEq, Repr

/-- The instructions: the seven host operations (R87), operands in the order of the spec, and the six
input-byte classes (R84), each with the byte it classifies. -/
inductive Instr where
  /-- `CRC.CALC seed, data, length` (R116). -/
  | crcCalc (seed : Byte) (data : Data) (length : Nat)
  /-- `CRC.CALCO offset, seed, data, length` (R117). -/
  | crcCalco (offset : Nat) (seed : Byte) (data : Data) (length : Nat)
  /-- `RX.FEED b` (R140). -/
  | rxFeed (b : Byte)
  /-- `RX.FEEDN data, n` (R150). -/
  | rxFeedn (data : Data) (n : Nat)
  /-- `RX.RESET` (R170). -/
  | rxReset
  /-- `RX.SETVH h` (R171). -/
  | rxSetvh (h : HandlerId)
  /-- `RX.SETRO h` (R172). -/
  | rxSetro (h : HandlerId)
  /-- `BYTE.MARKER` (R141). -/
  | byteMarker (b : Byte)
  /-- `BYTE.NOISE` (R141). -/
  | byteNoise (b : Byte)
  /-- `BYTE.LEN` (R142). -/
  | byteLen (b : Byte)
  /-- `BYTE.BADLEN` (R143). -/
  | byteBadlen (b : Byte)
  /-- `BYTE.BODY` (R144). -/
  | byteBody (b : Byte)
  /-- `BYTE.LAST` (R144 to R148). -/
  | byteLast (b : Byte)
  deriving DecidableEq, Repr

/-- The ports of one transaction: the command code and every operand port (R88, R90). A format uses the ports
R88 names for it; the others carry nothing the block looks at (log 26). -/
structure Ports where
  op     : Byte
  seed   : Byte := 0
  offset : Nat := 0
  length : Nat := 0
  data   : Data := .null
  b      : Byte := 0
  n      : Nat := 0
  h      : HandlerId := ⟨0⟩
  deriving DecidableEq, Repr

/-- What the host presents to the block: a transaction on the command port (R90), or one input byte on the
receiver's byte port, decoded by the STREAM rows of the opcode table (R84; log 5). -/
inductive Signal where
  | command (p : Ports)
  | stream (b : Byte)
  deriving DecidableEq, Repr

/-- Why a signal decodes to no instruction. -/
inductive DecodeError where
  /-- A command code other than the seven of R87 (R89). -/
  | reservedCommand (op : Byte)
  /-- An input byte while a handler runs: no class of R84 has `FRAME_COMPLETE` on arrival (R175). -/
  | insideHandler
  /-- `READING_PAYLOAD` with `need = 0`: outside the boundary states of R31, no class of R84. -/
  | noByteClass
  deriving DecidableEq, Repr

end Sys2Proof
end

