-- ==== Sys2Proof/Machine/Operands.lean ====
section
/-! DEFINITION. The operand forms: `DATA` references and their ranges (20_memory.md R59, R60), and the tests on
an input byte (00_scope.md R7, R8, R10). -/

namespace Sys2Proof.Machine

/-- The bytes a `DATA` reference gives access to; a null reference gives none (R60). -/
def dataBytes : Data → List Byte
  | .null => []
  | .buffer bytes => bytes

/-- `size(data)`: the number of bytes the caller really owns (R59); 0 for null (R60). -/
def dataSize (d : Data) : Nat := (dataBytes d).length

/-- The caller's contract `offset + length <= size(data)`, the sum on natural numbers (R60). -/
def inRange (d : Data) (offset length : Nat) : Bool := decide (offset + length ≤ dataSize d)

/-- `data[offset..offset+length)` in ascending order (R53), or nothing when the contract is broken (R61). -/
def dataRange (d : Data) (offset length : Nat) : Option (List Byte) :=
  if inRange d offset length then some (((dataBytes d).drop offset).take length) else none

/-- Membership in `MARKERS` (R7). -/
def isMarker (c : Config) (b : Byte) : Bool := c.markers.contains b

/-- `LEN_MIN <= b <= LEN_MAX`, unsigned (R142). -/
def isLength (c : Config) (b : Byte) : Bool := decide (lenMin ≤ b.toNat) && decide (b.toNat ≤ c.lenMax)

end Sys2Proof.Machine
end

