-- ==== Sys2Proof/WellFormed.lean ====
section
/-! DEFINITION. Which instructions meet the conditions the spec puts on their operands: the caller's contract
(20_memory.md R60, 41_frame_receiver.md R150) and the byte conditions of the classes (30_encoding.md R84). The
conditions on the receiver's state stand in the meanings. -/

namespace Sys2Proof

/-- The operand conditions of an instruction under the parameters `c`. -/
def Instr.wf (c : Config) : Instr → Bool
  | .crcCalc _ data length => Machine.inRange data 0 length
  | .crcCalco offset _ data length => Machine.inRange data offset length
  | .rxFeed _ => true
  | .rxFeedn data n => Machine.inRange data 0 n
  | .rxReset => true
  | .rxSetvh _ => true
  | .rxSetro _ => true
  | .byteMarker b => Machine.isMarker c b
  | .byteNoise b => !Machine.isMarker c b
  | .byteLen b => Machine.isLength c b
  | .byteBadlen b => !Machine.isLength c b
  | .byteBody _ => true
  | .byteLast _ => true

end Sys2Proof
end

