-- ==== Sys2Proof/Decode.lean ====
section
/-! DEFINITION. The decoder of the command port (30_encoding.md R87 to R89) and of the byte port (R84), the
encoder, and the reading of one word of the opcode table. -/

namespace Sys2Proof

/-- What selects the decoding of an input byte (R84): the parameters, `st` and `need`. -/
structure DecodeCtx where
  cfg  : Config
  st   : RxState
  need : Nat
  deriving DecidableEq, Repr

/-- The command port: the code selects the operation and the operand ports it takes (R87, R88); every other
code is reserved (R89). -/
def decodeCommand (p : Ports) : Except DecodeError Instr :=
  if p.op = 0x10 then .ok (.crcCalc p.seed p.data p.length)
  else if p.op = 0x11 then .ok (.crcCalco p.offset p.seed p.data p.length)
  else if p.op = 0x20 then .ok (.rxFeed p.b)
  else if p.op = 0x21 then .ok (.rxFeedn p.data p.n)
  else if p.op = 0x22 then .ok .rxReset
  else if p.op = 0x23 then .ok (.rxSetvh p.h)
  else if p.op = 0x24 then .ok (.rxSetro p.h)
  else .error (.reservedCommand p.op)

/-- The class of an input byte by the state on arrival (R84). -/
def classify (ctx : DecodeCtx) (b : Byte) : Except DecodeError ByteClass :=
  match ctx.st with
  | .seekingMarker => .ok (if Machine.isMarker ctx.cfg b then .marker else .noise)
  | .readingLength => .ok (if Machine.isLength ctx.cfg b then .len else .badLen)
  | .readingPayload =>
    match ctx.need with
    | 0 => .error .noByteClass
    | 1 => .ok .last
    | _ + 2 => .ok .body
  | .frameComplete => .error .insideHandler

/-- The instruction of a class and its byte. -/
def classInstr (b : Byte) : ByteClass → Instr
  | .marker => .byteMarker b
  | .noise => .byteNoise b
  | .len => .byteLen b
  | .badLen => .byteBadlen b
  | .body => .byteBody b
  | .last => .byteLast b

/-- The byte port (R84). -/
def decodeStream (ctx : DecodeCtx) (b : Byte) : Except DecodeError Instr :=
  match classify ctx b with
  | .ok c => .ok (classInstr b c)
  | .error e => .error e

/-- The decoder: total, refusing by name. -/
def decode (ctx : DecodeCtx) : Signal → Except DecodeError Instr
  | .command p => decodeCommand p
  | .stream b => decodeStream ctx b

/-- The encoder, from R87 and R88: a host operation as a transaction, its unused ports idle; a byte class as
its byte on the byte port. -/
def encode : Instr → Signal
  | .crcCalc seed data length => .command { op := 0x10, seed := seed, data := data, length := length }
  | .crcCalco offset seed data length =>
    .command { op := 0x11, offset := offset, seed := seed, data := data, length := length }
  | .rxFeed b => .command { op := 0x20, b := b }
  | .rxFeedn data n => .command { op := 0x21, data := data, n := n }
  | .rxReset => .command { op := 0x22 }
  | .rxSetvh h => .command { op := 0x23, h := h }
  | .rxSetro h => .command { op := 0x24, h := h }
  | .byteMarker b => .stream b
  | .byteNoise b => .stream b
  | .byteLen b => .stream b
  | .byteBadlen b => .stream b
  | .byteBody b => .stream b
  | .byteLast b => .stream b

/-- The signal a word of `opcode_table.json` stands for. The table mixes two encoding spaces of 8 bits, command
codes (formats F...) and input bytes (format STREAM), and a word does not say which (log 17): a word that is one
of the seven command codes is a transaction with every operand port zero or null, any other word an input byte.
No row is wider than one byte. -/
def tableSignal (nbits w : Nat) : Option Signal :=
  if nbits ≤ 8 ∧ w < 256 then
    let p : Ports := { op := BitVec.ofNat 8 w }
    match decodeCommand p with
    | .ok _ => some (.command p)
    | .error _ => some (.stream (BitVec.ofNat 8 w))
  else none

/-- The context of a word of the table: the default parameters, as its BYTE.MARKER row says, in
`SEEKING_MARKER`. -/
def tableCtx : DecodeCtx := { cfg := defaultConfig, st := .seekingMarker, need := 0 }

/-- The instruction the decoder reads from a word of `opcode_table.json`. -/
def decodeTableWord (nbits w : Nat) : Option Instr :=
  match tableSignal nbits w with
  | some sig => (decode tableCtx sig).toOption
  | none => none

end Sys2Proof
end

