-- ==== Sys2Proof/Machine/Crc.lean ====
section
/-! DEFINITION. The Checksum Engine's functions, its table and its two strategies (40_checksum_engine.md R110 to
R114). -/

namespace Sys2Proof.Machine

/-- `POLY` (R110). -/
def poly : Byte := 0xD5

/-- One round: the test of bit 7 is made on the value before the shift (R110). -/
def round1 (c : Byte) : Byte := if c.getLsbD 7 then shl1 c ^^^ poly else shl1 c

/-- `k` rounds. -/
def rounds : Nat → Byte → Byte
  | 0, c => c
  | k + 1, c => rounds k (round1 c)

/-- `ROUND8(c)`: eight rounds (R110). -/
def round8 (c : Byte) : Byte := rounds 8 c

/-- `UPDATE(c, d)` (R111). -/
def update (c d : Byte) : Byte := round8 (c ^^^ d)

/-- `CRC8(seed, s)`: the left fold of `UPDATE`, no final exclusive or (R112). -/
def crc8 (seed : Byte) (s : List Byte) : Byte := s.foldl update seed

/-- Every byte value, 0 to 255 in order. -/
def allBytes : List Byte := (List.range 256).map (BitVec.ofNat 8)

/-- The table construction: `T[v] = ROUND8(v)` for every byte value v (R113). -/
def builtTable : Vector Byte 256 := ⟨⟨allBytes.map round8⟩, by simp [allBytes]⟩

/-- `MemRead(TROM, v, 1)` is `T[v]`, defined for every byte value (R59). -/
def tableRead (T : Vector Byte 256) (v : Byte) : Byte := T[v.toNat]'(v.isLt)

/-- A Checksum Engine instance: under `TABLE` the table and nothing else (R22), under `BITSERIAL` no state
(R21). The constructor is the parameter `STRATEGY` (R6). -/
inductive Engine where
  | table (T : Vector Byte 256)
  | bitserial
  deriving DecidableEq, Repr

/-- Construction of an engine, the table filled eagerly (R220, R221). -/
def buildEngine : Strategy → Engine
  | .table => .table builtTable
  | .bitserial => .bitserial

/-- The strategy of an engine (R6). -/
def engineStrategy : Engine → Strategy
  | .table _ => .table
  | .bitserial => .bitserial

/-- `UPDATE` as the strategy evaluates it: `T[c XOR d]`, or the eight conditional shifts (R114). -/
def engineUpdate : Engine → Byte → Byte → Byte
  | .table T, c, d => tableRead T (c ^^^ d)
  | .bitserial, c, d => round8 (c ^^^ d)

/-- The engine's computation over a byte sequence; the running value is local to it (R23, R112). -/
def engineCrc (e : Engine) (seed : Byte) (s : List Byte) : Byte := s.foldl (engineUpdate e) seed

end Sys2Proof.Machine
end

