-- ==== Sys2Proof/Machine/State.lean ====
section
/-! DEFINITION. The state of the block (10_state.md R20), the reasons a step stops, and reset. -/

namespace Sys2Proof.Machine

/-- The frame buffer `FBUF` (20_memory.md R50): the bytes the receiver has stored, by index, strictly rising.
An unlisted index has no value (R39; log 9). -/
abbrev Memory := List Host.Cell

/-- An event shown to the host (R33): the handler taken from the slot, a copy of `buf[0..N)`, and for the raw
observer the verdict. -/
inductive Event where
  | validFrame (h : HandlerId) (view : List Byte)
  | rawFrame (h : HandlerId) (view : List Byte) (valid : Bool)
  deriving DecidableEq, Repr

/-- Why the machine stops with a fault. The block itself has no fault (60_exceptions.md R195): both mark an
access R59 gives no meaning, and no state that meets R31 reaches them. -/
inductive Fault where
  /-- Raised by a store at an index of `FRAME_CAP` or more (R59, R155). Safe: it stops where the spec says
  nothing. -/
  | outsideFrameBuffer
  /-- Raised by frame completion when it would read a buffer byte that no byte of the frame in progress has
  written (R25, R59). Safe: it stops where the spec says nothing. -/
  | deadFrameByte
  deriving DecidableEq, Repr

/-- Why an instruction or a signal has no step. -/
inductive Refusal where
  /-- Raised by `exec` for an instruction without a meaning in this model. Safe. -/
  | notModelled (mnemonic : String)
  /-- Raised by `step` for a command code other than the seven (30_encoding.md R89). Safe. -/
  | reservedCommand (op : Byte)
  /-- Raised by CRC.CALC, CRC.CALCO and RX.FEEDN when the range leaves the caller's buffer (20_memory.md R61,
  41_frame_receiver.md R150). Safe. -/
  | rangeOutsideData
  /-- Raised by every receiver operation issued while a handler runs, `st = FRAME_COMPLETE` (42_receiver_control.md
  R175). Safe. -/
  | nestedOperation
  /-- Raised by a BYTE instruction whose class is not the class of its byte in the state (30_encoding.md R84).
  Safe: the decoder never yields such an instruction. -/
  | byteOutOfClass
  /-- Raised for an input byte in `READING_PAYLOAD` with `need = 0`, which R31 excludes and R84 gives no class.
  Safe. -/
  | noByteClass
  deriving DecidableEq, Repr

/-- The state. The first group is the parameters, the second the block's state by R20, the third the model's own
records of the host's side. -/
structure State where
  /-- `MARKERS`, `FRAME_CAP`, `LEN_MAX` (00_scope.md R7, R9, R10); no operation writes them (log 1). -/
  cfg     : Config
  /-- The engine the receiver is bound to: `T` and `STRATEGY` (R22, R37; 92_eei_decisions.md D29). -/
  engine  : Engine
  /-- `st` (R24). -/
  st      : RxState
  /-- `buf` (R25). -/
  buf     : Memory
  /-- `pos` (R26). -/
  pos     : Nat
  /-- `need` (R27). -/
  need    : Nat
  /-- `vh` (R28). -/
  vh      : Option HandlerId
  /-- `ro` (R29). -/
  ro      : Option HandlerId
  /-- `out`, the events emitted so far, oldest first (R33). -/
  out     : List Event
  /-- The bytes returned to the host by CRC.CALC and CRC.CALCO so far, oldest first (R90; log 6). -/
  results : List Byte
  /-- The operations the host has still to issue, oldest first (R224; log 4). -/
  inbox   : List Signal
  deriving DecidableEq, Repr

/-- Construction (70_reset_and_hazards.md R220; 10_state.md R37 to R41). -/
def State.construct (strategy : Strategy) (c : Config) : State where
  cfg     := c
  engine  := buildEngine strategy
  st      := .seekingMarker
  buf     := []
  pos     := 0
  need    := 0
  vh      := none
  ro      := none
  out     := []
  results := []
  inbox   := []

/-- The block right after construction at the default parameters, `STRATEGY = TABLE` (log 2), before the host
has issued anything. -/
def State.reset : State := State.construct .table defaultConfig

end Sys2Proof.Machine
end

