-- ==== Sys2Proof/Machine/Flags.lean ====
section
/-! DEFINITION. The block's only flag, the verdict `ok` (10_state.md R30, 41_frame_receiver.md R145). -/

namespace Sys2Proof.Machine

/-- `ok`: the received checksum byte equals the engine's CRC of the interior bytes, seed 0x00 (R145). -/
def verdict (e : Engine) (interior : List Byte) (received : Byte) : Bool :=
  decide (engineCrc e 0x00 interior = received)

end Sys2Proof.Machine
end

