-- ==== Sys2Proof/Machine/Ops.lean ====
section
/-! DEFINITION. The named operations over the state: the frame buffer, sequencing, events, the four rules of the
per-byte machine (41_frame_receiver.md R140 to R150), the engine call, and the conditions (60_exceptions.md
R190). -/

namespace Sys2Proof.Machine

/-! ### Outcomes -/

/-- The outcome of an operation on a state. -/
abbrev Result := Host.Outcome State Fault Refusal

/-- `f` after `o`, if `o` answers a next state. -/
def andThen (o : Result) (f : State → Result) : Result :=
  match o with
  | .next s => f s
  | .fault r => .fault r
  | .refused r => .refused r

/-! ### The frame buffer -/

/-- The byte listed at an index. -/
def Memory.read : Memory → Nat → Option Byte
  | [], _ => none
  | (a, v) :: rest, i => if i = a then some v else Memory.read rest i

/-- Lists `v` at an index, keeping the indices strictly rising. -/
def Memory.write : Memory → Nat → Byte → Memory
  | [], i, v => [(i, v)]
  | (a, w) :: rest, i, v =>
    if i < a then (i, v) :: (a, w) :: rest
    else if i = a then (i, v) :: rest
    else (a, w) :: Memory.write rest i v

/-- The canonical form: indices strictly rising. Every listed entry differs from an unlisted one, which has no
value. -/
abbrev Memory.wf (m : Memory) : Prop := m.Pairwise (fun c d => c.1 < d.1)

/-- `MemWrite(FBUF, i, 1, v)`, that is `buf[i] <- v` (R59): inside the buffer only. -/
def storeByte (i : Nat) (v : Byte) (s : State) : Result :=
  if i < s.cfg.frameCap then .next { s with buf := s.buf.write i v } else .fault .outsideFrameBuffer

/-- `MemRead(FBUF, i, 1)`, defined for `i < pos` (R59). -/
def readByte (s : State) (i : Nat) : Option Byte := if i < s.pos then s.buf.read i else none

/-- The bytes `buf[i..i+n)`. -/
def readRange (s : State) (i : Nat) : Nat → Option (List Byte)
  | 0 => some []
  | n + 1 =>
    match readByte s i, readRange s (i + 1) n with
    | some v, some vs => some (v :: vs)
    | _, _ => none

/-! ### Sequencing and events -/

/-- Writes the sequencing state `st`, `pos`, `need` (R32). -/
def setPhase (st : RxState) (pos need : Nat) (s : State) : State := { s with st := st, pos := pos, need := need }

/-- No frame in progress: the effect of RX.RESET (R170), of abandoning a frame (R143) and of the return from
`FRAME_COMPLETE` (R148). The bytes of `buf` stay listed but dead (R25; log 10). -/
def toSeeking (s : State) : State := setPhase .seekingMarker 0 0 s

/-- `emit E` (R15, R33). -/
def emit (e : Event) (s : State) : State := { s with out := s.out ++ [e] }

/-- The valid-frame handler (R146). -/
def emitValid (view : List Byte) (ok : Bool) (s : State) : State :=
  match s.vh with
  | some h => if ok then emit (.validFrame h view) s else s
  | none => s

/-- The raw observer (R147). -/
def emitRaw (view : List Byte) (ok : Bool) (s : State) : State :=
  match s.ro with
  | some h => emit (.rawFrame h view ok) s
  | none => s

/-! ### One input byte -/

/-- `SEEK(b)` (R141). -/
def seek (b : Byte) (s : State) : Result :=
  if isMarker s.cfg b then andThen (storeByte 0 b s) fun t => .next { t with pos := 1, st := .readingLength }
  else .next s

/-- `ACCEPT_LEN(b)` (R142). -/
def acceptLen (b : Byte) (s : State) : Result :=
  andThen (storeByte 1 b s) fun t => .next (setPhase .readingPayload 2 b.toNat t)

/-- `REJECT_LEN(b)`: the frame is abandoned and the same byte is examined once as a marker (R143). -/
def rejectLen (b : Byte) (s : State) : Result := seek b (toSeeking s)

/-- The counters after a store: `pos + 1`, `need - 1`, and `FRAME_COMPLETE` when `need` is now 0 (R144). -/
def advance (s : State) : State :=
  setPhase (if s.need - 1 = 0 then .frameComplete else s.st) (s.pos + 1) (s.need - 1) s

/-- `STORE(b)` (R144). -/
def storeBody (b : Byte) (s : State) : Result := andThen (storeByte s.pos b s) fun t => .next (advance t)

/-- The check of a complete frame, N = `pos`: the view `buf[0..N)` and the verdict on the interior `buf[2..N-2]`
and the received `buf[N-1]` (R145). -/
def checkFrame (s : State) : Option (List Byte × Bool) :=
  match readRange s 0 s.pos, readRange s 2 (s.pos - 3), readByte s (s.pos - 1) with
  | some view, some interior, some received => some (view, verdict s.engine interior received)
  | _, _, _ => none

/-- The handlers, then the return to `SEEKING_MARKER` (R146 to R148). Handlers are event records (R33; log 12). -/
def finishFrame (view : List Byte) (ok : Bool) (s : State) : State :=
  toSeeking (emitRaw view ok (emitValid view ok s))

/-- `COMPLETE()` (R145 to R148). -/
def complete (s : State) : Result :=
  match checkFrame s with
  | some (view, ok) => .next (finishFrame view ok s)
  | none => .fault .deadFrameByte

/-- The rule `READING_PAYLOAD` selects: store, then complete the frame if nothing more is needed (R140, R144). -/
def receive (b : Byte) (s : State) : Result :=
  andThen (storeBody b s) fun t => if t.need = 0 then complete t else .next t

/-- One input byte, by the value of `st` on entry (R140). -/
def feedByte (b : Byte) (s : State) : Result :=
  match s.st with
  | .seekingMarker => seek b s
  | .readingLength => if isLength s.cfg b then acceptLen b s else rejectLen b s
  | .readingPayload => if s.need = 0 then .refused .noByteClass else receive b s
  | .frameComplete => .refused .nestedOperation

/-- The bytes of a batch in order, each fully processed before the next (R150). -/
def feedBytes : List Byte → State → Result
  | [], s => .next s
  | b :: rest, s => andThen (feedByte b s) (feedBytes rest)

/-- An operation on the receiver, which a handler of the same receiver may not issue (R175): while one runs,
`st = FRAME_COMPLETE` (R198). -/
def unlessNested (s : State) (o : Result) : Result :=
  if s.st = .frameComplete then .refused .nestedOperation else o

/-- What the decoder looks at (30_encoding.md R84). -/
def decodeCtx (s : State) : DecodeCtx := { cfg := s.cfg, st := s.st, need := s.need }

/-- A BYTE instruction runs only on a byte of its class (R84; log 7). -/
def whenClass (c : ByteClass) (b : Byte) (s : State) (o : Result) : Result :=
  match classify (decodeCtx s) b with
  | .ok d => if d = c then o else .refused .byteOutOfClass
  | .error .insideHandler => .refused .nestedOperation
  | .error _ => .refused .noByteClass

/-! ### The engine call -/

/-- `calculate(offset, seed, data, length)`: the CRC of the range is returned to the caller; no state of the
block changes (40_checksum_engine.md R116, R117). -/
def calculate (offset : Nat) (seed : Byte) (data : Data) (length : Nat) (s : State) : Result :=
  match dataRange data offset length with
  | some bytes => .next { s with results := s.results ++ [engineCrc s.engine seed bytes] }
  | none => .refused .rangeOutsideData

/-! ### Conditions -/

/-- The three conditions (R190). `note` writes no state and is visible to nobody (R15, R194), so they are the
value of `feedNotes` beside the step, not a part of the state (log 8). -/
inductive Condition where
  | unrecognizedMarker
  | invalidLength
  | checksumMismatch
  deriving DecidableEq, Repr

/-- The conditions `SEEK(b)` notes (R141, R191). -/
def seekNotes (c : Config) (b : Byte) : List Condition := if isMarker c b then [] else [.unrecognizedMarker]

/-- The conditions the check of a complete frame notes (R145, R193). -/
def completeNotes (s : State) : List Condition :=
  match checkFrame s with
  | some (_, ok) => if ok then [] else [.checksumMismatch]
  | none => []

/-- The conditions one input byte notes, in order (R201). -/
def feedNotes (b : Byte) (s : State) : List Condition :=
  match s.st with
  | .seekingMarker => seekNotes s.cfg b
  | .readingLength => if isLength s.cfg b then [] else .invalidLength :: seekNotes s.cfg b
  | .readingPayload =>
    if s.need = 1 then
      match storeBody b s with
      | .next t => completeNotes t
      | _ => []
    else []
  | .frameComplete => []

/-- The conditions a batch notes, in order. -/
def batchNotes : List Byte → State → List Condition
  | [], _ => []
  | b :: rest, s =>
    match feedByte b s with
    | .next t => feedNotes b s ++ batchNotes rest t
    | _ => feedNotes b s

end Sys2Proof.Machine
end

