-- ==== Sys2Proof/Machine/ChecksumEngine.lean ====
section
/-! DEFINITION. CRC.CALC and CRC.CALCO (40_checksum_engine.md R116, R117). A handler may issue both (42_receiver_control.md
R175). -/

namespace Sys2Proof.Machine

/-- `CRC.CALC seed, data, length` (R116): `CRC8(seed, data[0..length))`. -/
def execCrcCalc (seed : Byte) (data : Data) (length : Nat) (s : State) : Result :=
  calculate 0 seed data length s

/-- `CRC.CALCO offset, seed, data, length` (R117): `CRC8(seed, data[offset..offset+length))`. -/
def execCrcCalco (offset : Nat) (seed : Byte) (data : Data) (length : Nat) (s : State) : Result :=
  calculate offset seed data length s

end Sys2Proof.Machine
end

