-- ==== Sys2Proof/Machine/FrameReceiver.lean ====
section
/-! DEFINITION. RX.FEED, RX.FEEDN and the six input-byte classes (41_frame_receiver.md R140 to R150). -/

namespace Sys2Proof.Machine

/-- `RX.FEED b` (R140). -/
def execRxFeed (b : Byte) (s : State) : Result := feedByte b s

/-- `RX.FEEDN data, n` (R150): `RX.FEED` of `data[0]` to `data[n-1]`; refused when `n > size(data)`. -/
def execRxFeedn (data : Data) (n : Nat) (s : State) : Result :=
  unlessNested s <|
    match dataRange data 0 n with
    | some bytes => feedBytes bytes s
    | none => .refused .rangeOutsideData

/-- `BYTE.MARKER` (R141): a marker in `SEEKING_MARKER`. -/
def execByteMarker (b : Byte) (s : State) : Result := whenClass .marker b s (seek b s)

/-- `BYTE.NOISE` (R141): no marker in `SEEKING_MARKER`; discarded. -/
def execByteNoise (b : Byte) (s : State) : Result := whenClass .noise b s (seek b s)

/-- `BYTE.LEN` (R142): a length inside the bounds. -/
def execByteLen (b : Byte) (s : State) : Result := whenClass .len b s (acceptLen b s)

/-- `BYTE.BADLEN` (R143): a length outside the bounds. -/
def execByteBadlen (b : Byte) (s : State) : Result := whenClass .badLen b s (rejectLen b s)

/-- `BYTE.BODY` (R144): a payload-phase byte that is not the last. -/
def execByteBody (b : Byte) (s : State) : Result := whenClass .body b s (storeBody b s)

/-- `BYTE.LAST` (R144 to R148): the byte that completes the frame. -/
def execByteLast (b : Byte) (s : State) : Result := whenClass .last b s (andThen (storeBody b s) complete)

end Sys2Proof.Machine
end

