-- ==== Sys2Proof/Machine/ReceiverControl.lean ====
section
/-! DEFINITION. RX.RESET, RX.SETVH, RX.SETRO (42_receiver_control.md R170 to R175). -/

namespace Sys2Proof.Machine

/-- `RX.RESET` (R170). -/
def execRxReset (s : State) : Result := unlessNested s (.next (toSeeking s))

/-- `RX.SETVH h` (R171). -/
def execRxSetvh (h : HandlerId) (s : State) : Result := unlessNested s (.next { s with vh := some h })

/-- `RX.SETRO h` (R172). -/
def execRxSetro (h : HandlerId) (s : State) : Result := unlessNested s (.next { s with ro := some h })

end Sys2Proof.Machine
end

