-- ==== Sys2Proof/Machine/Dispatch.lean ====
section
/-! DEFINITION. The dispatch: one arm per instruction of the opcode table. -/

namespace Sys2Proof.Machine

def exec (i : Instr) (s : State) : Host.Outcome State Fault Refusal :=
  match i with
  | .crcCalc seed data length => Sys2Proof.Machine.execCrcCalc seed data length s
  | .crcCalco offset seed data length => Sys2Proof.Machine.execCrcCalco offset seed data length s
  | .rxFeed b => Sys2Proof.Machine.execRxFeed b s
  | .rxFeedn data n => Sys2Proof.Machine.execRxFeedn data n s
  | .rxReset => Sys2Proof.Machine.execRxReset s
  | .rxSetvh h => Sys2Proof.Machine.execRxSetvh h s
  | .rxSetro h => Sys2Proof.Machine.execRxSetro h s
  | .byteMarker b => Sys2Proof.Machine.execByteMarker b s
  | .byteNoise b => Sys2Proof.Machine.execByteNoise b s
  | .byteLen b => Sys2Proof.Machine.execByteLen b s
  | .byteBadlen b => Sys2Proof.Machine.execByteBadlen b s
  | .byteBody b => Sys2Proof.Machine.execByteBody b s
  | .byteLast b => Sys2Proof.Machine.execByteLast b s

end Sys2Proof.Machine
end

