-- ==== Sys2Proof/Machine/Fetch.lean ====
section
/-! DEFINITION. What the host presents next, and how the opcode table's words are presented (30_encoding.md R90;
70_reset_and_hazards.md R220, R224). -/

namespace Sys2Proof.Machine

/-- The next signal and the state with it taken from the host's list; nothing when the host has issued nothing
further (R224). -/
def fetch (s : State) : Option (Signal × State) :=
  match s.inbox with
  | [] => none
  | sig :: rest => some (sig, { s with inbox := rest })

/-- The refusal of a signal that decodes to no instruction. -/
def decodeRefusal : DecodeError → Refusal
  | .reservedCommand op => .reservedCommand op
  | .insideHandler => .nestedOperation
  | .noByteClass => .noByteClass

/-- A signal placed where the next step fetches it. An input byte is decoded under the sequencing state (R84):
for one the receiver is put in `SEEKING_MARKER`, the state a word of the table is read in (log 18). -/
def present (sig : Signal) (s : State) : State :=
  match sig with
  | .command _ => { s with inbox := sig :: s.inbox }
  | .stream _ => { toSeeking s with inbox := sig :: s.inbox }

/-- A word of the opcode table placed where the next step fetches it. -/
def presentWord (nbits w : Nat) (s : State) : State :=
  match tableSignal nbits w with
  | some sig => present sig s
  | none => s

end Sys2Proof.Machine
end

