-- ==== Sys2Proof/Machine/Step.lean ====
section
/-! DEFINITION. One step: the next operation of the host, decoded and run. -/

namespace Sys2Proof.Machine

/-- One step: with nothing issued the block is idle and holds its state (70_reset_and_hazards.md R220,
60_exceptions.md R207); else the next signal is taken, decoded and run to its end (30_encoding.md R90). -/
def step (s : State) : Host.Outcome State Fault Refusal :=
  match fetch s with
  | none => .next s
  | some (sig, t) =>
    match decode (decodeCtx s) sig with
    | .ok i => exec i t
    | .error e => .refused (decodeRefusal e)

/-- `s` with the instruction of a word of the opcode table as the host's next operation. -/
def State.withFetchWord (s : State) (nbits w : Nat) : State := presentWord nbits w s

end Sys2Proof.Machine
end

