-- ==== Sys2Proof/Machine/Pseudo.lean ====
section
/-! DEFINITION. The spec's pseudo-operations, which have no command code: their expansions into operations
(30_encoding.md R92, 41_frame_receiver.md R158). -/

namespace Sys2Proof.Machine

/-- `CRC.FRAME f`: the checksum of a frame being built, N = len(f), is `CRC.CALCO 2, 0x00, f, N - 3` (R92).
For fewer than 3 bytes the spec gives no meaning; the model takes length 0 there (DESIGN CHOICE, log 28). -/
def crcFrame (f : List Byte) : Instr := .crcCalco 2 0x00 (.buffer f) (f.length - 3)

/-- `RX.POLL`: one tick of the host's loop on what the byte source has available; nothing available feeds nothing
(R92, R158). A read returns exactly the bytes announced as available (DESIGN CHOICE, log 27). -/
def rxPoll (available : List Byte) : List Instr :=
  if available.length = 0 then [] else [.rxFeedn (.buffer available) available.length]

end Sys2Proof.Machine
end

