-- ==== Sys2Proof/Safety.lean ====
section
/-! DEFINITION. What counts as a safe state and a conforming host, in the terms the statements use: the boundary
invariants (10_state.md R31), frames (30_encoding.md R80 to R82), the events of a frame (41_frame_receiver.md R146,
R147), and what one input byte stores. -/

namespace Sys2Proof.Machine

/-- The engine as construction leaves it (R37): under `TABLE`, `T[v] = ROUND8(v)` for every byte value. -/
def Engine.Built : Engine → Prop
  | .table T => ∀ v, tableRead T v = round8 v
  | .bitserial => True

/-- What R31 says of `st`, `pos`, `need` and the bytes of the frame in progress; every byte below `pos` has been
written (R25). -/
def PhaseInv (s : State) : Prop :=
  match s.st with
  | .seekingMarker => s.pos = 0 ∧ s.need = 0
  | .readingLength => s.pos = 1 ∧ s.need = 0 ∧ ∃ m, s.buf.read 0 = some m ∧ isMarker s.cfg m = true
  | .readingPayload =>
    ∃ m len, s.buf.read 0 = some m ∧ isMarker s.cfg m = true ∧ s.buf.read 1 = some len ∧
      isLength s.cfg len = true ∧ 2 ≤ s.pos ∧ s.pos ≤ len.toNat + 1 ∧ s.pos + s.need = len.toNat + 2 ∧
      ∀ i < s.pos, (s.buf.read i).isSome = true
  | .frameComplete => False

/-- The boundary invariant: the engine as built, the frame buffer in canonical form with every index below
`FRAME_CAP`, and R31. -/
structure Inv (s : State) : Prop where
  engine : s.engine.Built
  canon  : s.buf.wf
  cap    : ∀ c ∈ s.buf, c.1 < s.cfg.frameCap
  phase  : PhaseInv s

/-- A transaction within the host's obligations (R233): a defined code whose operands meet the caller's contract.
Any input byte may be fed. -/
def signalOk (c : Config) : Signal → Bool
  | .stream _ => true
  | .command p =>
    match decodeCommand p with
    | .ok i => i.wf c
    | .error _ => false

/-- Everything the host has still to issue is within its obligations. -/
def HostOk (s : State) : Prop := ∀ sig ∈ s.inbox, signalOk s.cfg sig = true

/-- A complete frame (R80, R81): marker, length L, interior of L - 1 bytes, one checksum byte. -/
structure CompleteFrame (c : Config) (m len : Byte) (interior : List Byte) : Prop where
  marker : isMarker c m = true
  length : isLength c len = true
  count  : interior.length + 1 = len.toNat

/-- The bytes of a frame in order (R80). -/
def frameBytes (m len : Byte) (interior : List Byte) (checksum : Byte) : List Byte :=
  m :: len :: (interior ++ [checksum])

/-- The events of one complete frame, in order (R146, R147, R201). -/
def frameEvents (vh ro : Option HandlerId) (view : List Byte) (ok : Bool) : List Event :=
  (match vh with
    | some h => if ok then [.validFrame h view] else []
    | none => []) ++
  (match ro with
    | some h => [.rawFrame h view ok]
    | none => [])

/-- The index the class of an input byte stores it at: 0 for a marker, 1 for a length, 0 for a rejected length
that is a marker, `pos` for the payload phase (R141 to R144). -/
def storeIndex (b : Byte) (s : State) : Option Nat :=
  match classify (decodeCtx s) b with
  | .ok .marker => some 0
  | .ok .noise => none
  | .ok .len => some 1
  | .ok .badLen => if isMarker s.cfg b then some 0 else none
  | .ok .body => some s.pos
  | .ok .last => some s.pos
  | .error _ => none

/-- The indices a batch stores at, byte after byte. -/
def storeIndices : List Byte → State → List Nat
  | [], _ => []
  | b :: rest, s =>
    (storeIndex b s).toList ++
      match feedByte b s with
      | .next t => storeIndices rest t
      | _ => []

/-- The bytes a feed operation presents to the receiver (41_frame_receiver.md R154); no other instruction is a feed. -/
def fedBytes : Instr → Option (List Byte)
  | .rxFeed b => some [b]
  | .rxFeedn data n => dataRange data 0 n
  | _ => none

/-- Operations issued one after another (20_memory.md R64). -/
def execAll : List Instr → State → Result
  | [], s => .next s
  | i :: rest, s => andThen (exec i s) (execAll rest)

/-- The valid-frame events among a list of events. -/
def validOnly : List Event → List Event
  | [] => []
  | .validFrame h view :: rest => .validFrame h view :: validOnly rest
  | .rawFrame _ _ _ :: rest => validOnly rest

end Sys2Proof.Machine
end

