-- ==== Sys2Proof/Certificates/Slice0/Obligations.lean ====
section
/-! DEFINITION. The statements for the provers. Each docstring names the rules of spec/ the statement formalises;
where it rests on a decision or an inference the spec marks as its own, or on a choice of the model, it says so. -/

open Sys2Proof Sys2Proof.Machine

/-! ### Encoding -/

/-- Decode and encode agree: every host operation is decoded from its transaction, every operand at every value, in
every context; every signal that decodes at all decodes to an instruction that its own encoding gives back; and two
signals that decode to one instruction carry one command code, or one byte (30_encoding.md sections 1 and 2; the codes
are the spec's decision D3, the byte port is the model's own, log 5). -/
def Obligations.DecodeAndEncodeAgree : Prop :=
  (∀ (ctx : DecodeCtx) (seed b : Byte) (offset length n : Nat) (data : Data) (h : HandlerId),
    ∀ i ∈ [Instr.crcCalc seed data length, .crcCalco offset seed data length, .rxFeed b, .rxFeedn data n, .rxReset,
        .rxSetvh h, .rxSetro h],
      decode ctx (encode i) = .ok i) ∧
  (∀ (ctx : DecodeCtx) (sig : Signal) (i : Instr), decode ctx sig = .ok i → decode ctx (encode i) = .ok i) ∧
  (∀ (ctx : DecodeCtx) (p q : Ports) (i : Instr),
    decode ctx (.command p) = .ok i → decode ctx (.command q) = .ok i → p.op = q.op) ∧
  ∀ (ctx : DecodeCtx) (b c : Byte) (i : Instr),
    decode ctx (.stream b) = .ok i → decode ctx (.stream c) = .ok i → b = c

/-- The byte port: an instruction of the stream is decoded exactly where the receiver's state and the byte put it
in its class (30_encoding.md section 1, rule R84; the class names are the spec's decision D4). -/
def Obligations.StreamDecodesToTheClassOfTheState : Prop :=
  ∀ (ctx : DecodeCtx) (b : Byte),
    (decode ctx (encode (.byteMarker b)) = .ok (.byteMarker b) ↔
      ctx.st = .seekingMarker ∧ b ∈ ctx.cfg.markers) ∧
    (decode ctx (encode (.byteNoise b)) = .ok (.byteNoise b) ↔
      ctx.st = .seekingMarker ∧ b ∉ ctx.cfg.markers) ∧
    (decode ctx (encode (.byteLen b)) = .ok (.byteLen b) ↔
      ctx.st = .readingLength ∧ 2 ≤ b.toNat ∧ b.toNat ≤ ctx.cfg.lenMax) ∧
    (decode ctx (encode (.byteBadlen b)) = .ok (.byteBadlen b) ↔
      ctx.st = .readingLength ∧ (b.toNat < 2 ∨ ctx.cfg.lenMax < b.toNat)) ∧
    (decode ctx (encode (.byteBody b)) = .ok (.byteBody b) ↔ ctx.st = .readingPayload ∧ 1 < ctx.need) ∧
    (decode ctx (encode (.byteLast b)) = .ok (.byteLast b) ↔ ctx.st = .readingPayload ∧ ctx.need = 1)

/-- In every state that meets R31 every byte falls in exactly one class and its instruction is well formed: the
decode of the byte port is total (30_encoding.md section 1, rule R84). -/
def Obligations.EveryByteHasExactlyOneClass : Prop :=
  ∀ (s : State) (b : Byte), Inv s →
    ∃ c, classify (decodeCtx s) b = .ok c ∧ decode (decodeCtx s) (.stream b) = .ok (classInstr b c) ∧
      (classInstr b c).wf s.cfg = true ∧
      ∀ d, decode (decodeCtx s) (.stream b) = .ok (classInstr b d) → d = c

/-- A command code other than the seven has no step (30_encoding.md R89; the codes and their refusal are the spec's
decision D3). -/
def Obligations.ReservedCommandHasNoStep : Prop :=
  ∀ (s : State) (p : Ports) (rest : List Signal), s.inbox = .command p :: rest →
    p.op ∉ [(0x10 : Byte), 0x11, 0x20, 0x21, 0x22, 0x23, 0x24] → step s = .refused (.reservedCommand p.op)

/-- Words written out from the spec's encodings: the seven command codes and the marker 0xC8 of the default
allow-list (opcode_table.json; log 17). -/
def Obligations.TableWordsDecode : Prop :=
  [0x10, 0x11, 0x20, 0x21, 0x22, 0x23, 0x24, 0xC8].map (decodeTableWord 8) =
    [some (.crcCalc 0 .null 0), some (.crcCalco 0 0 .null 0), some (.rxFeed 0), some (.rxFeedn .null 0),
      some .rxReset, some (.rxSetvh ⟨0⟩), some (.rxSetro ⟨0⟩), some (.byteMarker 0xC8)]

/-! ### The step -/

/-- A step takes the host's next operation off its list, decodes it in the state, and is `exec` of the decoded
instruction on what is left; a signal that decodes to nothing is refused by name (30_encoding.md R90; the list is
the model's own, log 4). -/
def Obligations.StepRunsTheDecodedInstruction : Prop :=
  ∀ (s : State) (sig : Signal) (rest : List Signal), s.inbox = sig :: rest →
    (∀ i, decode (decodeCtx s) sig = .ok i → step s = exec i { s with inbox := rest }) ∧
    (∀ e, decode (decodeCtx s) sig = .error e → step s = .refused (decodeRefusal e))

/-- With nothing issued the block is idle and holds its state (70_reset_and_hazards.md R220, 60_exceptions.md R207;
that an idle step answers the same state is the model's choice, log 4). -/
def Obligations.IdleStepHoldsTheState : Prop := ∀ s : State, s.inbox = [] → step s = .next s

/-- A byte on the byte port does what RX.FEED of it does (41_frame_receiver.md R140; the byte port is the model's
own, log 5). -/
def Obligations.StreamByteIsRxFeed : Prop :=
  ∀ (s : State) (b : Byte) (rest : List Signal),
    step { s with inbox := .stream b :: rest } = step { s with inbox := encode (.rxFeed b) :: rest }

/-! ### Reset -/

/-- The engine after construction: under TABLE, `T[v] = ROUND8(v)` for every byte value, under BITSERIAL nothing
(10_state.md R37). -/
def Obligations.EngineAfterConstruction : Prop :=
  ∀ c : Config,
    (∃ T, (State.construct .table c).engine = .table T ∧ ∀ v : Byte, tableRead T v = round8 v) ∧
    (State.construct .bitserial c).engine = .bitserial

/-- The receiver after construction: `st = SEEKING_MARKER`; `pos = 0` and `need = 0` (decision D25), empty slots
(decision D10), `out` empty (decision D26), no byte of `buf` readable (decision D15), the parameters as given; and
nothing issued, nothing returned (the model's choice, logs 4 and 6). -/
def Obligations.ReceiverAfterConstruction : Prop :=
  ∀ (strategy : Strategy) (c : Config),
    let s := State.construct strategy c
    s.st = .seekingMarker ∧ s.pos = 0 ∧ s.need = 0 ∧ s.vh = none ∧ s.ro = none ∧ s.out = [] ∧
      (∀ i, readByte s i = none) ∧ s.cfg = c ∧ engineStrategy s.engine = strategy ∧ s.inbox = [] ∧ s.results = []

/-- The boundary invariant holds after construction, whatever the strategy and the parameters (10_state.md section 3,
rule R31, an inference the spec marks as derived). -/
def Obligations.InvariantHoldsAtReset : Prop :=
  (∀ (strategy : Strategy) (c : Config), Inv (State.construct strategy c)) ∧ Inv State.reset

/-! ### The Checksum Engine -/

/-- Both strategies return the same byte for every seed and every byte sequence, and no operation shows which one is
in use: on either engine every instruction has the same outcome, but for the engine itself (40_checksum_engine.md
R115). -/
def Obligations.StrategiesReturnTheSameByte : Prop :=
  (∀ (seed : Byte) (bytes : List Byte),
    engineCrc (buildEngine .table) seed bytes = engineCrc (buildEngine .bitserial) seed bytes) ∧
  ∀ (i : Instr) (s : State),
    match exec i { s with engine := buildEngine .table }, exec i { s with engine := buildEngine .bitserial } with
    | .next t, .next u => u = { t with engine := buildEngine .bitserial }
    | .fault r, .fault r' => r = r'
    | .refused r, .refused r' => r = r'
    | _, _ => False

/-- Any engine in a state that meets the invariant computes `CRC8` (40_checksum_engine.md R112, R114). -/
def Obligations.EngineComputesTheFold : Prop :=
  ∀ (e : Engine) (seed : Byte) (bytes : List Byte), e.Built → engineCrc e seed bytes = crc8 seed bytes

/-- CRC.CALC within its contract returns `CRC8(seed, data[0..length))` and changes nothing of the block; a null
`data` has size 0 (40_checksum_engine.md R116 less its refusal; 20_memory.md R53, R60). -/
def Obligations.CrcCalcReturnsTheChecksum : Prop :=
  ∀ (s : State) (seed : Byte) (data : Data) (length : Nat), s.engine.Built → length ≤ dataSize data →
    exec (.crcCalc seed data length) s =
      .next { s with results := s.results ++ [crc8 seed ((dataBytes data).take length)] }

/-- CRC.CALCO within its contract returns `CRC8(seed, data[offset..offset+length))` and changes nothing of the block
(40_checksum_engine.md R117 less its refusal; 20_memory.md R53, R60). -/
def Obligations.CrcCalcoReturnsTheChecksum : Prop :=
  ∀ (s : State) (offset : Nat) (seed : Byte) (data : Data) (length : Nat), s.engine.Built →
    offset + length ≤ dataSize data →
    exec (.crcCalco offset seed data length) s =
      .next { s with results := s.results ++ [crc8 seed (((dataBytes data).drop offset).take length)] }

/-- A call outside the caller's contract has no step (20_memory.md R61; the refusal is the spec's decision D18). -/
def Obligations.RangeOutsideTheDataIsRefused : Prop :=
  ∀ (s : State) (offset : Nat) (seed : Byte) (data : Data) (length n : Nat),
    (dataSize data < length → exec (.crcCalc seed data length) s = .refused .rangeOutsideData) ∧
    (dataSize data < offset + length → exec (.crcCalco offset seed data length) s = .refused .rangeOutsideData) ∧
    (dataSize data < n → s.st ≠ .frameComplete → exec (.rxFeedn data n) s = .refused .rangeOutsideData)

/-- Zero length returns the seed, a null `data` included, and CRC.CALCO with offset 0 is CRC.CALC
(40_checksum_engine.md R118 and the corner cases of R116 and R117, inferences the spec marks as derived). -/
def Obligations.ZeroLengthReturnsTheSeed : Prop :=
  ∀ (s : State) (offset : Nat) (seed : Byte) (data : Data) (length : Nat),
    exec (.crcCalc seed data 0) s = .next { s with results := s.results ++ [seed] } ∧
    (offset ≤ dataSize data →
      exec (.crcCalco offset seed data 0) s = .next { s with results := s.results ++ [seed] }) ∧
    exec (.crcCalco 0 seed data length) s = exec (.crcCalc seed data length) s

/-- The result is a function of the seed and of the bytes in the range alone, not of the strategy, of earlier calls
or of any receiver's state (40_checksum_engine.md R120). -/
def Obligations.ResultDependsOnSeedAndBytesAlone : Prop :=
  ∀ (s t : State) (offset offset' : Nat) (seed : Byte) (data data' : Data) (length : Nat),
    s.engine.Built → t.engine.Built → offset + length ≤ dataSize data → offset' + length ≤ dataSize data' →
    (∀ k < length, (dataBytes data)[offset + k]? = (dataBytes data')[offset' + k]?) →
    ∃ r s' t', exec (.crcCalco offset seed data length) s = .next s' ∧
      exec (.crcCalco offset' seed data' length) t = .next t' ∧
      s'.results = s.results ++ [r] ∧ t'.results = t.results ++ [r]

/-! ### The laws of CRC8 (40_checksum_engine.md R121, which the spec marks as derived) -/

/-- Additivity: `ROUND8` of an exclusive or, and `CRC8` of sequences of equal length. -/
def Obligations.ChecksumIsAdditive : Prop :=
  (∀ x y : Byte, round8 (x ^^^ y) = round8 x ^^^ round8 y) ∧
  ∀ (s s' : Byte) (a a' : List Byte), a.length = a'.length →
    crc8 (s ^^^ s') (List.zipWith (· ^^^ ·) a a') = crc8 s a ^^^ crc8 s' a'

/-- Chaining over several buffers through the seed, and folding the seed into the first byte. -/
def Obligations.ChecksumChainsThroughTheSeed : Prop :=
  (∀ (s : Byte) (a b : List Byte), crc8 s (a ++ b) = crc8 (crc8 s a) b) ∧
  ∀ (s x : Byte) (a : List Byte), crc8 s (x :: a) = crc8 0x00 ((x ^^^ s) :: a)

/-- Bijection: `ROUND8` is a permutation of the bytes, so is `CRC8` in the seed for a fixed sequence, and in the
last byte for a fixed seed and the bytes before it. -/
def Obligations.ChecksumIsAPermutation : Prop :=
  Function.Bijective round8 ∧ (∀ a : List Byte, Function.Bijective fun s => crc8 s a) ∧
    ∀ (s : Byte) (a : List Byte), Function.Bijective fun x => crc8 s (a ++ [x])

/-- Residue: appending the checksum gives zero, and only the checksum does; so a frame is valid exactly when the CRC
of its interior and checksum together is zero, on any engine as built. -/
def Obligations.ResidueIsZero : Prop :=
  ∀ (e : Engine) (s x : Byte) (a : List Byte), e.Built →
    crc8 s (a ++ [crc8 s a]) = 0x00 ∧ (verdict e a x = true ↔ crc8 0x00 (a ++ [x]) = 0x00)

/-- Zeros: with seed zero, bytes that are all zero give zero, and zero bytes put before a sequence change nothing. -/
def Obligations.LeadingZerosChangeNothing : Prop :=
  ∀ (n : Nat) (a : List Byte), crc8 0x00 (List.replicate n 0x00) = 0x00 ∧
    crc8 0x00 (List.replicate n 0x00 ++ a) = crc8 0x00 a

/-- Single-bit sensitivity: flipping any one bit of a sequence changes its CRC for every seed, whatever its length. -/
def Obligations.EveryBitFlipChangesTheChecksum : Prop :=
  ∀ (s : Byte) (a : List Byte) (i : Nat) (h : i < a.length) (k : Nat), k < 8 →
    crc8 s (a.set i (a[i] ^^^ BitVec.twoPow 8 k)) ≠ crc8 s a

/-- Feeds one message bit to the remainder register of a long division by x^8 + x^7 + x^6 + x^4 + x^2 + 1 over
GF(2): the register moves up one place, the bit enters below, and the divisor is taken off when a one leaves at the
top. -/
def divideBit (r : Byte) (bit : Bool) : Byte :=
  (if r.getLsbD 7 then shl1 r ^^^ 0xD5 else shl1 r) ^^^ (if bit then 0x01 else 0x00)

/-- The bits of a byte sequence, most significant bit of each byte first. -/
def messageBits (bytes : List Byte) : List Bool :=
  bytes.flatMap fun b => [b.getLsbD 7, b.getLsbD 6, b.getLsbD 5, b.getLsbD 4, b.getLsbD 3, b.getLsbD 2, b.getLsbD 1,
    b.getLsbD 0]

/-- `CRC8` with seed zero is the remainder of the message times x^8 on division by the polynomial, the third of the
spec's independent routes (40_checksum_engine.md R110, whose polynomial the spec marks as derived;
95_test_vectors.md, opening paragraph). -/
def Obligations.ChecksumIsThePolynomialRemainder : Prop :=
  ∀ bytes : List Byte,
    crc8 0x00 bytes = (messageBits bytes ++ List.replicate 8 false).foldl divideBit 0x00

/-! ### One input byte -/

/-- `SEEKING_MARKER`: a marker is stored as byte 0 and `READING_LENGTH` entered; any other byte notes
UnrecognizedMarker and nothing is written (41_frame_receiver.md R141). -/
def Obligations.SeekingByteEffect : Prop :=
  ∀ (s : State) (b : Byte), s.st = .seekingMarker →
    (b ∈ s.cfg.markers →
      exec (.byteMarker b) s = .next { s with buf := s.buf.write 0 b, pos := 1, st := .readingLength } ∧
      feedNotes b s = []) ∧
    (b ∉ s.cfg.markers → exec (.byteNoise b) s = .next s ∧ feedNotes b s = [.unrecognizedMarker])

/-- `READING_LENGTH`, a length inside the bounds, whether or not it is also a marker (41_frame_receiver.md R142; the
priority over the marker check is an inference the spec marks as derived). -/
def Obligations.AcceptedLengthEffect : Prop :=
  ∀ (s : State) (b : Byte), s.st = .readingLength → 2 ≤ b.toNat → b.toNat ≤ s.cfg.lenMax →
    exec (.byteLen b) s =
      .next { s with buf := s.buf.write 1 b, pos := 2, need := b.toNat, st := .readingPayload } ∧
    feedNotes b s = []

/-- `READING_LENGTH`, a length outside the bounds: InvalidLength, the frame abandoned, and the same byte examined
once as a marker in the same step (41_frame_receiver.md R143; the same step is the spec's decision D13). -/
def Obligations.RejectedLengthEffect : Prop :=
  ∀ (s : State) (b : Byte), s.st = .readingLength → (b.toNat < 2 ∨ s.cfg.lenMax < b.toNat) →
    (b ∈ s.cfg.markers →
      exec (.byteBadlen b) s =
        .next { s with buf := s.buf.write 0 b, pos := 1, need := 0, st := .readingLength } ∧
      feedNotes b s = [.invalidLength]) ∧
    (b ∉ s.cfg.markers →
      exec (.byteBadlen b) s = .next { s with pos := 0, need := 0, st := .seekingMarker } ∧
      feedNotes b s = [.invalidLength, .unrecognizedMarker])

/-- `READING_PAYLOAD`: every byte, whatever its value, is stored at `pos`, `pos + 1`, `need - 1`; while more is
needed the step ends there, and the byte that makes `need` 0 enters `FRAME_COMPLETE`, whose rules run in the same
step; on entry at a boundary `need` is at least 1 and the store is inside the buffer (41_frame_receiver.md R144). -/
def Obligations.PayloadByteIsStored : Prop :=
  (∀ s : State, Inv s → s.st = .readingPayload → 1 ≤ s.need ∧ s.pos ≤ s.cfg.frameCap - 1) ∧
  ∀ (s : State) (b : Byte), s.st = .readingPayload → s.pos < s.cfg.frameCap →
    (1 < s.need →
      exec (.byteBody b) s =
        .next { s with buf := s.buf.write s.pos b, pos := s.pos + 1, need := s.need - 1 } ∧
      feedNotes b s = []) ∧
    (s.need = 1 →
      exec (.byteLast b) s =
        complete { s with buf := s.buf.write s.pos b, pos := s.pos + 1, need := 0, st := .frameComplete })

/-- The byte that completes a frame: the view is the frame in arrival order, N = `buf[1] + 2` bytes; the verdict
compares it with the CRC of the interior; ValidFrame if it is valid and `vh` is filled, then RawFrame if `ro` is
filled; then `SEEKING_MARKER` (41_frame_receiver.md section 2, rules R145 to R148; that the state is transient, that
an empty `vh` drops the frame and the order of the events are the spec's decisions D12, D11 and D14). -/
def Obligations.CompletedFrameEffect : Prop :=
  ∀ (s : State) (b : Byte), Inv s → s.st = .readingPayload → s.need = 1 →
    ∃ m len interior, s.buf.read 0 = some m ∧ s.buf.read 1 = some len ∧ CompleteFrame s.cfg m len interior ∧
      s.pos = len.toNat + 1 ∧ (∀ k, k + 2 < s.pos → s.buf.read (k + 2) = interior[k]?) ∧
      let ok := decide (crc8 0x00 interior = b)
      exec (.byteLast b) s =
        .next { s with
          buf := s.buf.write s.pos b, st := .seekingMarker, pos := 0, need := 0,
          out := s.out ++ frameEvents s.vh s.ro (frameBytes m len interior b) ok } ∧
      feedNotes b s = if ok then [] else [.checksumMismatch]

/-- After a completed frame, valid or not, `pos <- 0`, `need <- 0`, `st <- SEEKING_MARKER`, and the buffer's bytes are
dead: none is readable (41_frame_receiver.md R148). -/
def Obligations.CompletedFrameReturnsToSeeking : Prop :=
  ∀ (s : State) (b : Byte), Inv s → s.st = .readingPayload → s.need = 1 →
    ∃ t, exec (.byteLast b) s = .next t ∧ t.st = .seekingMarker ∧ t.pos = 0 ∧ t.need = 0 ∧
      ∀ i, readByte t i = none

/-- ChecksumMismatch is noted exactly when the last byte of a complete frame differs from the CRC of its interior;
then there is no valid-frame event, one RawFrame with `valid = false` if `ro` is filled and nothing otherwise, and all N
bytes are consumed. No byte that notes another condition emits anything (60_exceptions.md R193). -/
def Obligations.MismatchIsVisibleToTheObserverAlone : Prop :=
  (∀ (s : State) (b : Byte) (interior : List Byte), Inv s → s.st = .readingPayload → s.need = 1 →
    interior.length + 2 = s.pos → (∀ k < interior.length, s.buf.read (k + 2) = interior[k]?) →
    (feedNotes b s = [.checksumMismatch] ↔ b ≠ crc8 0x00 interior) ∧
    (b ≠ crc8 0x00 interior →
      ∃ t view, exec (.rxFeed b) s = .next t ∧ t.st = .seekingMarker ∧ t.pos = 0 ∧ view.length = s.pos + 1 ∧
        (∀ i < s.pos, view[i]? = s.buf.read i) ∧ view[s.pos]? = some b ∧
        t.out = s.out ++ (s.ro.map fun h => Event.rawFrame h view false).toList)) ∧
  ∀ (s : State) (b : Byte), Inv s → feedNotes b s ≠ [] → feedNotes b s ≠ [.checksumMismatch] →
    ∃ t, exec (.rxFeed b) s = .next t ∧ t.out = s.out

/-- A BYTE instruction has no step on a byte that is not of its class in the state (the model's choice, log 7), and
none in the states R31 excludes (log 23). -/
def Obligations.ByteOutsideItsClassIsRefused : Prop :=
  ∀ (s : State) (b : Byte) (c d : ByteClass), classify (decodeCtx s) b = .ok d → d ≠ c →
    exec (classInstr b c) s = .refused .byteOutOfClass

/-! ### RX.FEED and RX.FEEDN -/

/-- RX.FEED is the instruction of its byte's class, and completes in every state that meets the invariant: it never
faults and never refuses, reaches a state that meets the invariant, and notes at most two conditions
(41_frame_receiver.md R140; R153, which the spec marks as derived). -/
def Obligations.RxFeedRunsTheClassOfItsByte : Prop :=
  (∀ (s : State) (b : Byte) (i : Instr), decode (decodeCtx s) (.stream b) = .ok i → exec (.rxFeed b) s = exec i s) ∧
  ∀ (s : State) (b : Byte), Inv s →
    ∃ t, exec (.rxFeed b) s = .next t ∧ Inv t ∧ (feedNotes b s).length ≤ 2

/-- The state graph (41_frame_receiver.md R152): for each state on entry and each byte, the state at the end of the
step and the events; RX.RESET goes to `SEEKING_MARKER`, and the operations that are no feed leave `st` as it is. That an
empty `vh` drops the frame, that a rejected length is examined again in the same step and the order of the events are
the spec's decisions D11, D13 and D14 (log 22). -/
def Obligations.StateGraphIsComplete : Prop :=
  (∀ (i : Instr) (s t : State), exec i s = .next t →
    (∃ seed data length, i = .crcCalc seed data length) ∨
      (∃ offset seed data length, i = .crcCalco offset seed data length) ∨ (∃ h, i = .rxSetvh h) ∨
      (∃ h, i = .rxSetro h) → t.st = s.st) ∧
  ∀ (s : State) (b : Byte), Inv s →
    (∃ t, exec .rxReset s = .next t ∧ t.st = .seekingMarker) ∧
    ∃ t events, exec (.rxFeed b) s = .next t ∧ t.out = s.out ++ events ∧
      match s.st with
      | .seekingMarker => events = [] ∧ t.st = if b ∈ s.cfg.markers then .readingLength else .seekingMarker
      | .readingLength => events = [] ∧ t.st =
          if 2 ≤ b.toNat ∧ b.toNat ≤ s.cfg.lenMax then .readingPayload
          else if b ∈ s.cfg.markers then .readingLength else .seekingMarker
      | .readingPayload =>
        if 1 < s.need then events = [] ∧ t.st = .readingPayload
        else t.st = .seekingMarker ∧ ∃ view ok, events = frameEvents s.vh s.ro view ok ∧
          (ok = true ↔ feedNotes b s = [])
      | .frameComplete => False

/-- RX.FEEDN is RX.FEED of `data[0]` to `data[n-1]` in order, and completes in every state that meets the invariant,
which holds again after it; with `n = 0` nothing happens (41_frame_receiver.md section 3, rule R150; the empty batch
is the spec's decision D28). -/
def Obligations.RxFeednIsItsFeedsInOrder : Prop :=
  ∀ (s : State) (data : Data) (n : Nat), Inv s → n ≤ dataSize data →
    exec (.rxFeedn data n) s = execAll (((dataBytes data).take n).map .rxFeed) s ∧
    (∃ t, exec (.rxFeedn data n) s = .next t ∧ Inv t) ∧
    exec (.rxFeedn data 0) s = .next s

/-- The frame of RX.FEED: one byte at most is stored, at the index its class gives; every other byte of the buffer,
the parameters, the engine, the slots, the results and the host's list are unchanged, and events are only
appended (10_state.md R20, 41_frame_receiver.md R140 to R144). -/
def Obligations.RxFeedFrame : Prop :=
  ∀ (s t : State) (b : Byte), exec (.rxFeed b) s = .next t →
    (∀ a, storeIndex b s ≠ some a → t.buf.read a = s.buf.read a) ∧
    (∀ a, storeIndex b s = some a → t.buf.read a = some b) ∧
    t.cfg = s.cfg ∧ t.engine = s.engine ∧ t.vh = s.vh ∧ t.ro = s.ro ∧ t.results = s.results ∧ t.inbox = s.inbox ∧
    ∃ events, t.out = s.out ++ events ∧ events.length ≤ 2

/-- The frame of RX.FEEDN: only the indices its bytes are stored at change, and the rest of the state as for
RX.FEED (10_state.md R20, 41_frame_receiver.md R150). -/
def Obligations.RxFeednFrame : Prop :=
  ∀ (s t : State) (data : Data) (n : Nat), exec (.rxFeedn data n) s = .next t →
    (∀ a, a ∉ storeIndices ((dataBytes data).take n) s → t.buf.read a = s.buf.read a) ∧
    t.cfg = s.cfg ∧ t.engine = s.engine ∧ t.vh = s.vh ∧ t.ro = s.ro ∧ t.results = s.results ∧ t.inbox = s.inbox ∧
    ∃ events, t.out = s.out ++ events

/-- No store goes past the buffer and `pos` never exceeds the frame's length (41_frame_receiver.md R155, which the
spec marks as derived). -/
def Obligations.NoStoreLeavesTheBuffer : Prop :=
  ∀ (s : State) (b : Byte), Inv s →
    (∀ a, storeIndex b s = some a → a < s.cfg.frameCap) ∧
    ∀ t, exec (.rxFeed b) s = .next t → t.pos ≤ s.cfg.frameCap ∧
      (t.st = .readingPayload → ∃ len, t.buf.read 1 = some len ∧ t.pos + t.need = len.toNat + 2)

/-- Independence from chunking: a sequence of RX.FEED and RX.FEEDN that presents the same bytes in order gives the
same outcome as one RX.FEEDN of them all (41_frame_receiver.md R154, which the spec marks as derived). -/
def Obligations.ChunkingDoesNotMatter : Prop :=
  ∀ (s : State) (ops : List Instr) (pieces : List (List Byte)), Inv s → ops.map fedBytes = pieces.map some →
    execAll ops s = exec (.rxFeedn (.buffer pieces.flatten) pieces.flatten.length) s ∧ ∃ t, execAll ops s = .next t

/-- Every type byte and every payload is accepted: from `SEEKING_MARKER`, noise bytes and then a well-formed frame
give the events of that frame and nothing else, and the receiver seeks again (41_frame_receiver.md R156, which the
spec marks as derived; 30_encoding.md R86). That an empty `vh` drops the frame and the order of the events are the
spec's decisions D11 and D14 (log 22). -/
def Obligations.WellFormedFrameIsDelivered : Prop :=
  ∀ (s : State) (noise interior : List Byte) (m len : Byte), Inv s → s.st = .seekingMarker →
    (∀ b ∈ noise, b ∉ s.cfg.markers) → CompleteFrame s.cfg m len interior →
    let f := frameBytes m len interior (crc8 0x00 interior)
    ∃ t, exec (.rxFeedn (.buffer (noise ++ f)) (noise ++ f).length) s = .next t ∧
      t.out = s.out ++ frameEvents s.vh s.ro f true ∧ t.st = .seekingMarker ∧ t.pos = 0 ∧ t.need = 0

/-- Engine and receiver agree on what a checksum is: a frame whose last byte is what CRC.FRAME of it returns, polled in
one tick, is delivered as valid (30_encoding.md R82 and R92; the pseudo-operations are the spec's decision D30; that an
empty `vh` drops the frame and the order of the events are its decisions D11 and D14, log 22; that the byte is returned
in the list of results is the model's own, log 6, and so is that a read returns what was announced, log 27). -/
def Obligations.FrameBuiltWithTheEngineIsAccepted : Prop :=
  ∀ (s : State) (interior : List Byte) (m len x : Byte), Inv s → s.st = .seekingMarker →
    CompleteFrame s.cfg m len interior →
    ∃ r t u, exec (crcFrame (frameBytes m len interior x)) s = .next t ∧ t.results = s.results ++ [r] ∧
      execAll (rxPoll (frameBytes m len interior r)) t = .next u ∧
      u.out = s.out ++ frameEvents s.vh s.ro (frameBytes m len interior r) true ∧ execAll (rxPoll []) t = .next t

/-- Before its last byte a frame has produced no event (41_frame_receiver.md R151, R156, the latter marked as derived):
from `SEEKING_MARKER`, any part of a complete frame short of its checksum byte emits nothing. -/
def Obligations.NoEventBeforeTheLastByte : Prop :=
  ∀ (s : State) (interior : List Byte) (m len x : Byte) (k : Nat), Inv s → s.st = .seekingMarker →
    CompleteFrame s.cfg m len interior → k < (frameBytes m len interior x).length →
    ∃ t, exec (.rxFeedn (.buffer (frameBytes m len interior x)) k) s = .next t ∧ t.out = s.out

/-- Frames are delivered in the order their bytes were fed: a batch of well-formed frames back to back gives the
events of each in turn (41_frame_receiver.md R151, 20_memory.md R64; that ValidFrame precedes RawFrame within a frame
and that an empty `vh` drops the frame are the spec's decisions D14 and D11, log 22). -/
def Obligations.FramesAreDeliveredInOrder : Prop :=
  ∀ (s : State) (frames : List (Byte × Byte × List Byte)), Inv s → s.st = .seekingMarker →
    (∀ f ∈ frames, CompleteFrame s.cfg f.1 f.2.1 f.2.2) →
    let bytes := frames.map fun f => frameBytes f.1 f.2.1 f.2.2 (crc8 0x00 f.2.2)
    ∃ t, exec (.rxFeedn (.buffer bytes.flatten) bytes.flatten.length) s = .next t ∧ t.st = .seekingMarker ∧
      t.out = s.out ++ (bytes.map fun f => frameEvents s.vh s.ro f true).flatten

/-- No condition is fatal: no byte stops the receiver, from `READING_PAYLOAD` any `need` bytes lead back to
`SEEKING_MARKER`, from `READING_LENGTH` one byte that is out of range and no marker does, and RX.RESET does so at
once (60_exceptions.md R195). -/
def Obligations.ResynchronizationIsAlwaysPossible : Prop :=
  ∀ s : State, Inv s →
    (∀ bytes : List Byte, s.st = .readingPayload → bytes.length = s.need →
      ∃ t, exec (.rxFeedn (.buffer bytes) bytes.length) s = .next t ∧ t.st = .seekingMarker) ∧
    (∀ b : Byte, s.st = .readingLength → b ∉ s.cfg.markers → (b.toNat < 2 ∨ s.cfg.lenMax < b.toNat) →
      ∃ t, exec (.rxFeed b) s = .next t ∧ t.st = .seekingMarker) ∧
    (∃ t, exec .rxReset s = .next t ∧ t.st = .seekingMarker) ∧
    (∀ b : Byte, ∃ t, exec (.rxFeed b) s = .next t ∧ Inv t) ∧
    ∃ b : Byte, b ∉ s.cfg.markers ∧ (b.toNat < 2 ∨ s.cfg.lenMax < b.toNat)

/-- What is not guaranteed: a well-formed frame can be lost after a false start, a marker followed by a plausible
length (41_frame_receiver.md R157, which the spec marks as derived). -/
def Obligations.GenuineFrameCanBeLost : Prop :=
  ∃ (s t : State) (noise interior : List Byte) (m len : Byte) (h : HandlerId), Inv s ∧ s.st = .seekingMarker ∧
    s.vh = some h ∧ CompleteFrame s.cfg m len interior ∧
    let f := frameBytes m len interior (crc8 0x00 interior)
    exec (.rxFeedn (.buffer (noise ++ f)) (noise ++ f).length) s = .next t ∧ t.st = .seekingMarker ∧
      Event.validFrame h f ∉ t.out

/-! ### Receiver control -/

/-- RX.RESET: `st <- SEEKING_MARKER`, `pos <- 0`, `need <- 0`; `vh`, `ro`, `T`, `out` and everything else
unchanged, and no buffer byte is readable after it (10_state.md R42, 42_receiver_control.md R170; that nothing is
emitted is the spec's decision D16). That the dead bytes stay listed in `buf`, so that the buffer too is unchanged, is
the model's choice (log 10; decision D15 leaves it open). -/
def Obligations.RxResetEffect : Prop :=
  ∀ s : State, s.st ≠ .frameComplete →
    exec .rxReset s = .next { s with st := .seekingMarker, pos := 0, need := 0 } ∧
    ∀ i, readByte { s with st := .seekingMarker, pos := 0, need := 0 } i = none

/-- RX.SETVH fills the valid-frame slot, replacing what it held, and changes nothing else (42_receiver_control.md
R171). -/
def Obligations.RxSetvhEffect : Prop :=
  ∀ (s : State) (h : HandlerId), s.st ≠ .frameComplete → exec (.rxSetvh h) s = .next { s with vh := some h }

/-- RX.SETRO fills the observer's slot, replacing what it held, and changes nothing else (42_receiver_control.md
R172). -/
def Obligations.RxSetroEffect : Prop :=
  ∀ (s : State) (h : HandlerId), s.st ≠ .frameComplete → exec (.rxSetro h) s = .next { s with ro := some h }

/-- A registration made in the middle of a frame applies to that frame, here one made just before its last byte: the
events of the last byte carry the handlers just registered (42_receiver_control.md R174, which the spec marks as
derived; that ValidFrame precedes RawFrame is the spec's decision D14, log 22). -/
def Obligations.RegistrationAppliesToTheFrameInProgress : Prop :=
  ∀ (s : State) (b : Byte) (h h' : HandlerId), Inv s → s.st = .readingPayload → s.need = 1 →
    ∃ t view ok, execAll [.rxSetvh h, .rxSetro h', .rxFeed b] s = .next t ∧
      t.out = s.out ++ frameEvents (some h) (some h') view ok ∧ (ok = true ↔ feedNotes b s = []) ∧
      view.length = s.pos + 1 ∧ (∀ i < s.pos, view[i]? = s.buf.read i) ∧ view[s.pos]? = some b

/-- While a handler runs (`st = FRAME_COMPLETE`), every operation on its receiver is refused, and CRC.CALC and
CRC.CALCO run as ever (42_receiver_control.md R175; the refusal is the spec's decision D17). -/
def Obligations.OperationFromInsideAHandlerIsRefused : Prop :=
  ∀ (s : State), s.st = .frameComplete →
    (∀ (b : Byte) (data : Data) (n : Nat) (h : HandlerId) (c : ByteClass),
      ∀ i ∈ [Instr.rxFeed b, .rxFeedn data n, .rxReset, .rxSetvh h, .rxSetro h, classInstr b c],
        exec i s = .refused .nestedOperation) ∧
    ∀ (offset : Nat) (seed : Byte) (data : Data) (length : Nat), offset + length ≤ dataSize data →
      ∃ r, exec (.crcCalco offset seed data length) s = .next { s with results := s.results ++ [r] } ∧
        ∃ r', exec (.crcCalc seed data length) s = .next { s with results := s.results ++ [r'] }

/-- What a handler's entry sees: when the last byte of a frame has been stored and before the return, `st` is
`FRAME_COMPLETE`, `pos` = N = `buf[1] + 2`, `need` = 0 and the buffer holds the whole frame (60_exceptions.md R198). -/
def Obligations.HandlerEntryState : Prop :=
  ∀ (s : State) (b : Byte), Inv s → s.st = .readingPayload → s.need = 1 →
    ∃ t len, storeBody b s = .next t ∧ exec (.rxFeed b) s = complete t ∧ t.st = .frameComplete ∧ t.need = 0 ∧
      t.buf.read 1 = some len ∧ t.pos = len.toNat + 2 ∧ ∀ i < t.pos, (readByte t i).isSome = true

/-! ### Rules of the whole machine -/

/-- The invariant is kept by every step of the machine (10_state.md section 3, rule R31, and 41_frame_receiver.md
R153, inferences the spec marks as derived). -/
def Obligations.EveryStepKeepsTheInvariant : Prop :=
  ∀ s t : State, Inv s → step s = .next t → Inv t

/-- A host that keeps its obligations is never stopped: a step of a state that meets the invariant, with only
transactions within the host's obligations still to come, answers a next state of the same kind (60_exceptions.md
R195, 70_reset_and_hazards.md R233, R236, the last marked as derived). -/
def Obligations.ConformingHostIsNeverStopped : Prop :=
  ∀ s : State, Inv s → HostOk s → ∃ t, step s = .next t ∧ Inv t ∧ HostOk t

/-- No instruction writes the table, the strategy or the parameters (10_state.md R22, R34; 20_memory.md R67). -/
def Obligations.TableAndParametersAreNeverWritten : Prop :=
  ∀ (i : Instr) (s t : State), exec i s = .next t → t.engine = s.engine ∧ t.cfg = s.cfg

/-- Each slot is written by its own registration alone, so a filled slot stays filled for the life of the instance
(10_state.md R20; 42_receiver_control.md R173, the spec's decision D27). -/
def Obligations.SlotsChangeByRegistrationAlone : Prop :=
  ∀ (i : Instr) (s t : State), exec i s = .next t →
    ((∀ h, i ≠ .rxSetvh h) → t.vh = s.vh) ∧ ((∀ h, i ≠ .rxSetro h) → t.ro = s.ro) ∧
    (s.vh.isSome = true → t.vh.isSome = true) ∧ (s.ro.isSome = true → t.ro.isSome = true)

/-- Events are raised only by the byte that completes a frame, and an event whose slot is empty is not raised
(60_exceptions.md R197). -/
def Obligations.EventsComeOnlyFromCompletedFrames : Prop :=
  ∀ (i : Instr) (s t : State), exec i s = .next t →
    (∃ events, t.out = s.out ++ events) ∧
    ((s.vh = none ∧ s.ro = none) → t.out = s.out) ∧
    ((∀ b, i ≠ .byteLast b) → (∀ b, i = .rxFeed b → s.st ≠ .readingPayload ∨ s.need ≠ 1) →
      (∀ data n, i ≠ .rxFeedn data n) → t.out = s.out)

/-- The observer's presence or absence never changes the verdict, the state or what the valid-frame handler sees
(41_frame_receiver.md R147). -/
def Obligations.ObserverDoesNotAlterDelivery : Prop :=
  ∀ (s t : State) (ro : Option HandlerId) (bytes : List Byte), feedBytes bytes s = .next t →
    ∃ u, feedBytes bytes { s with ro := ro } = .next u ∧ u = { t with ro := ro, out := u.out } ∧
      ∀ events, t.out = s.out ++ events → ∃ events', u.out = s.out ++ events' ∧ validOnly events' = validOnly events

/-- After a reset no residue: whatever was fed before, a reset receiver emits for any bytes exactly what a newly
constructed one with the same engine, parameters and slots emits (42_receiver_control.md R176, which the spec marks
as derived). -/
def Obligations.NoResidueAfterReset : Prop :=
  ∀ (s : State) (bytes : List Byte), Inv s →
    ∃ r t u, exec .rxReset s = .next r ∧ feedBytes bytes r = .next t ∧
      feedBytes bytes { s with st := .seekingMarker, buf := [], pos := 0, need := 0 } = .next u ∧
      t.out = u.out ∧ t.st = u.st ∧ t.pos = u.pos ∧ t.need = u.need ∧ ∀ i < t.pos, t.buf.read i = u.buf.read i

/-- The frame buffer's data form is canonical: two buffers in the form that read alike are equal (20_memory.md R50,
R59; the form is the model's own, log 9). -/
def Obligations.EqualReadsAreEqualBuffers : Prop :=
  ∀ m m' : Memory, m.wf → m'.wf → (∀ i, m.read i = m'.read i) → m = m'
end

