-- ==== Sys2Proof/Laws/State.lean ====
section
/-! SUPPORT. The fields of a state after each update of it. -/

namespace Sys2Proof.Machine

variable (st : RxState) (pos need : Nat) (e : Event) (view : List Byte) (ok : Bool) (s : State)

/-! ### `setPhase` -/

@[simp] theorem setPhase_cfg : (setPhase st pos need s).cfg = s.cfg := rfl
@[simp] theorem setPhase_engine : (setPhase st pos need s).engine = s.engine := rfl
@[simp] theorem setPhase_st : (setPhase st pos need s).st = st := rfl
@[simp] theorem setPhase_buf : (setPhase st pos need s).buf = s.buf := rfl
@[simp] theorem setPhase_pos : (setPhase st pos need s).pos = pos := rfl
@[simp] theorem setPhase_need : (setPhase st pos need s).need = need := rfl
@[simp] theorem setPhase_vh : (setPhase st pos need s).vh = s.vh := rfl
@[simp] theorem setPhase_ro : (setPhase st pos need s).ro = s.ro := rfl
@[simp] theorem setPhase_out : (setPhase st pos need s).out = s.out := rfl
@[simp] theorem setPhase_results : (setPhase st pos need s).results = s.results := rfl
@[simp] theorem setPhase_inbox : (setPhase st pos need s).inbox = s.inbox := rfl

/-! ### `toSeeking` -/

@[simp] theorem toSeeking_cfg : (toSeeking s).cfg = s.cfg := rfl
@[simp] theorem toSeeking_engine : (toSeeking s).engine = s.engine := rfl
@[simp] theorem toSeeking_st : (toSeeking s).st = .seekingMarker := rfl
@[simp] theorem toSeeking_buf : (toSeeking s).buf = s.buf := rfl
@[simp] theorem toSeeking_pos : (toSeeking s).pos = 0 := rfl
@[simp] theorem toSeeking_need : (toSeeking s).need = 0 := rfl
@[simp] theorem toSeeking_vh : (toSeeking s).vh = s.vh := rfl
@[simp] theorem toSeeking_ro : (toSeeking s).ro = s.ro := rfl
@[simp] theorem toSeeking_out : (toSeeking s).out = s.out := rfl
@[simp] theorem toSeeking_results : (toSeeking s).results = s.results := rfl
@[simp] theorem toSeeking_inbox : (toSeeking s).inbox = s.inbox := rfl

/-! ### `advance` -/

@[simp] theorem advance_cfg : (advance s).cfg = s.cfg := rfl
@[simp] theorem advance_engine : (advance s).engine = s.engine := rfl
@[simp] theorem advance_st : (advance s).st = if s.need - 1 = 0 then .frameComplete else s.st := rfl
@[simp] theorem advance_buf : (advance s).buf = s.buf := rfl
@[simp] theorem advance_pos : (advance s).pos = s.pos + 1 := rfl
@[simp] theorem advance_need : (advance s).need = s.need - 1 := rfl
@[simp] theorem advance_vh : (advance s).vh = s.vh := rfl
@[simp] theorem advance_ro : (advance s).ro = s.ro := rfl
@[simp] theorem advance_out : (advance s).out = s.out := rfl
@[simp] theorem advance_results : (advance s).results = s.results := rfl
@[simp] theorem advance_inbox : (advance s).inbox = s.inbox := rfl

/-! ### `emit` -/

@[simp] theorem emit_cfg : (emit e s).cfg = s.cfg := rfl
@[simp] theorem emit_engine : (emit e s).engine = s.engine := rfl
@[simp] theorem emit_st : (emit e s).st = s.st := rfl
@[simp] theorem emit_buf : (emit e s).buf = s.buf := rfl
@[simp] theorem emit_pos : (emit e s).pos = s.pos := rfl
@[simp] theorem emit_need : (emit e s).need = s.need := rfl
@[simp] theorem emit_vh : (emit e s).vh = s.vh := rfl
@[simp] theorem emit_ro : (emit e s).ro = s.ro := rfl
@[simp] theorem emit_out : (emit e s).out = s.out ++ [e] := rfl
@[simp] theorem emit_results : (emit e s).results = s.results := rfl
@[simp] theorem emit_inbox : (emit e s).inbox = s.inbox := rfl

/-! ### The decoding context -/

@[simp] theorem decodeCtx_cfg : (decodeCtx s).cfg = s.cfg := rfl
@[simp] theorem decodeCtx_st : (decodeCtx s).st = s.st := rfl
@[simp] theorem decodeCtx_need : (decodeCtx s).need = s.need := rfl

/-! ### The handlers change `out` alone -/

/-- The valid-frame handler appends its event, if there is one to emit (R146). -/
theorem emitValid_eq : emitValid view ok s =
    { s with out := s.out ++ (match s.vh with
        | some h => if ok then [.validFrame h view] else []
        | none => []) } := by
  obtain ⟨_, _, _, _, _, _, vh, _, _, _, _⟩ := s
  cases vh <;> cases ok <;> simp [emitValid, emit]

/-- The raw observer appends its event, if one is registered (R147). -/
theorem emitRaw_eq : emitRaw view ok s =
    { s with out := s.out ++ (match s.ro with
        | some h => [.rawFrame h view ok]
        | none => []) } := by
  obtain ⟨_, _, _, _, _, _, _, ro, _, _, _⟩ := s
  cases ro <;> simp [emitRaw, emit]

end Sys2Proof.Machine
end

