-- ==== Sys2Proof/Laws/Ops.lean ====
section
/-! SUPPORT. One lemma per shared operation that says everything it can do, to be cited instead of unfolding the
operation. -/

namespace Sys2Proof.Machine

/-! ### Outcomes -/

@[simp] theorem andThen_next (s : State) (f : State → Result) : andThen (.next s) f = f s := rfl
@[simp] theorem andThen_fault (r : Fault) (f : State → Result) : andThen (.fault r) f = .fault r := rfl
@[simp] theorem andThen_refused (r : Refusal) (f : State → Result) : andThen (.refused r) f = .refused r := rfl

/-- A sequence answers a next state only through a next state of its first part. -/
theorem andThen_eq_next {o : Result} {f : State → Result} {t : State} :
    andThen o f = .next t ↔ ∃ u, o = .next u ∧ f u = .next t := by
  cases o <;> simp [andThen]

/-- Sequencing is associative. -/
theorem andThen_assoc (o : Result) (f g : State → Result) :
    andThen (andThen o f) g = andThen o fun u => andThen (f u) g := by
  cases o <;> rfl

/-! ### Parameters -/

/-- What the type `Config` says of its fields (R7, R9, R10; U13). -/
theorem Config.bounds (c : Config) :
    isMarker c 0xC8 = true ∧ isMarker c 0x00 = false ∧ isMarker c 0x01 = false ∧ isMarker c 0xFF = false ∧
      2 ≤ c.lenMax ∧ c.lenMax ≤ 255 ∧ c.lenMax + 2 ≤ c.frameCap ∧ c.frameCap ≤ 257 := by
  have h := c.ok
  simp only [paramsOk, lenMin, Bool.and_eq_true, Bool.not_eq_true', decide_eq_true_eq] at h
  obtain ⟨⟨⟨⟨⟨⟨⟨h1, h2⟩, h3⟩, h4⟩, h5⟩, h6⟩, h7⟩, h8⟩ := h
  exact ⟨h1, h2, h3, h4, of_decide_eq_true h5, h6, h7, h8⟩

/-- The length bounds as inequalities (R142). -/
theorem isLength_iff {c : Config} {b : Byte} : isLength c b = true ↔ lenMin ≤ b.toNat ∧ b.toNat ≤ c.lenMax := by
  simp [isLength]

/-- The range of a `DATA` reference that meets the contract (R60). -/
theorem dataRange_of_le {d : Data} {offset length : Nat} (h : offset + length ≤ dataSize d) :
    dataRange d offset length = some (((dataBytes d).drop offset).take length) := by
  simp [dataRange, inRange, h]

/-- A broken contract gives no bytes (R61). -/
theorem dataRange_of_lt {d : Data} {offset length : Nat} (h : dataSize d < offset + length) :
    dataRange d offset length = none := by
  simp [dataRange, inRange, Nat.not_le.mpr h]

/-! ### The engine -/

/-- An engine as built updates by `UPDATE`, whichever its strategy (R111, R114). -/
theorem engineUpdate_of_built {e : Engine} (h : e.Built) (c d : Byte) : engineUpdate e c d = update c d := by
  cases e with
  | table T => exact h (c ^^^ d)
  | bitserial => rfl

/-- Everything an engine call can do (R116, R117, R61). -/
theorem calculate_spec (offset : Nat) (seed : Byte) (data : Data) (length : Nat) (s : State) :
    (offset + length ≤ dataSize data ∧ calculate offset seed data length s = .next { s with
        results := s.results ++ [engineCrc s.engine seed (((dataBytes data).drop offset).take length)] }) ∨
    (dataSize data < offset + length ∧ calculate offset seed data length s = .refused .rangeOutsideData) := by
  by_cases h : offset + length ≤ dataSize data
  · exact .inl ⟨h, by simp [calculate, dataRange_of_le h]⟩
  · exact .inr ⟨Nat.lt_of_not_le h, by simp [calculate, dataRange_of_lt (Nat.lt_of_not_le h)]⟩

/-! ### The frame buffer -/

/-- Everything a store can do (R59). -/
theorem storeByte_spec (i : Nat) (v : Byte) (s : State) :
    (i < s.cfg.frameCap ∧ storeByte i v s = .next { s with buf := s.buf.write i v }) ∨
    (s.cfg.frameCap ≤ i ∧ storeByte i v s = .fault .outsideFrameBuffer) := by
  by_cases h : i < s.cfg.frameCap
  · exact .inl ⟨h, by simp [storeByte, h]⟩
  · exact .inr ⟨Nat.le_of_not_lt h, by simp [storeByte, h]⟩

/-- A store inside the buffer. -/
theorem storeByte_of_lt {i : Nat} {v : Byte} {s : State} (h : i < s.cfg.frameCap) :
    storeByte i v s = .next { s with buf := s.buf.write i v } := by
  simp [storeByte, h]

/-- A range whose every index is below `pos` and written reads as the list of its bytes. -/
theorem readRange_of_read {s : State} {f : Nat → Byte} {i n : Nat}
    (h : ∀ k < n, i + k < s.pos ∧ s.buf.read (i + k) = some (f k)) :
    readRange s i n = some ((List.range n).map f) := by
  induction n generalizing i f with
  | zero => rfl
  | succ n ih =>
    have h0 := h 0 (by omega)
    have hrest := ih (f := fun k => f (k + 1)) (i := i + 1)
      (fun k hk => by have := h (k + 1) (by omega); rw [show i + 1 + k = i + (k + 1) by omega]; exact this)
    simp only [Nat.add_zero] at h0
    simp [readRange, readByte, h0.1, h0.2, hrest, List.range_succ_eq_map, Function.comp_def]

/-! ### The rules of one input byte -/

/-- Everything `SEEK(b)` can do (R141). -/
theorem seek_spec (b : Byte) (s : State) :
    (isMarker s.cfg b = true ∧
      seek b s = .next { s with buf := s.buf.write 0 b, pos := 1, st := .readingLength }) ∨
    (isMarker s.cfg b = false ∧ seek b s = .next s) := by
  have hcap := Config.bounds s.cfg
  cases h : isMarker s.cfg b
  · exact .inr ⟨rfl, by simp [seek, h]⟩
  · exact .inl ⟨rfl, by simp [seek, h, storeByte_of_lt (s := s) (i := 0) (by omega)]⟩

/-- Everything `ACCEPT_LEN(b)` can do (R142). -/
theorem acceptLen_spec (b : Byte) (s : State) :
    acceptLen b s = .next { s with buf := s.buf.write 1 b, pos := 2, need := b.toNat, st := .readingPayload } := by
  have hcap := Config.bounds s.cfg
  simp [acceptLen, storeByte_of_lt (s := s) (i := 1) (by omega), setPhase]

/-- Everything `REJECT_LEN(b)` can do (R143). -/
theorem rejectLen_spec (b : Byte) (s : State) :
    (isMarker s.cfg b = true ∧
      rejectLen b s = .next { s with buf := s.buf.write 0 b, pos := 1, need := 0, st := .readingLength }) ∨
    (isMarker s.cfg b = false ∧
      rejectLen b s = .next { s with pos := 0, need := 0, st := .seekingMarker }) := by
  rcases seek_spec b (toSeeking s) with ⟨hm, h⟩ | ⟨hm, h⟩
  · exact .inl ⟨hm, h⟩
  · exact .inr ⟨hm, h⟩

/-- Everything `STORE(b)` can do (R144). -/
theorem storeBody_spec (b : Byte) (s : State) :
    (s.pos < s.cfg.frameCap ∧ storeBody b s = .next { s with
        buf := s.buf.write s.pos b, pos := s.pos + 1, need := s.need - 1,
        st := if s.need - 1 = 0 then .frameComplete else s.st }) ∨
    (s.cfg.frameCap ≤ s.pos ∧ storeBody b s = .fault .outsideFrameBuffer) := by
  rcases storeByte_spec s.pos b s with ⟨h, e⟩ | ⟨h, e⟩
  · exact .inl ⟨h, by simp [storeBody, e, advance, setPhase]⟩
  · exact .inr ⟨h, by simp [storeBody, e]⟩

/-- The handlers and the return in one update (R146 to R148). -/
theorem finishFrame_eq (view : List Byte) (ok : Bool) (s : State) :
    finishFrame view ok s = { s with
      st := .seekingMarker, pos := 0, need := 0, out := s.out ++ frameEvents s.vh s.ro view ok } := by
  obtain ⟨_, _, _, _, _, _, vh, ro, _, _, _⟩ := s
  cases vh <;> cases ro <;> cases ok <;>
    simp [finishFrame, emitValid, emitRaw, emit, toSeeking, setPhase, frameEvents]

/-- Everything `COMPLETE()` can do (R145 to R148). -/
theorem complete_spec (s : State) :
    (∃ view ok, checkFrame s = some (view, ok) ∧ complete s = .next { s with
        st := .seekingMarker, pos := 0, need := 0, out := s.out ++ frameEvents s.vh s.ro view ok }) ∨
    (checkFrame s = none ∧ complete s = .fault .deadFrameByte) := by
  cases h : checkFrame s with
  | none => exact .inr ⟨rfl, by simp [complete, h]⟩
  | some p =>
    obtain ⟨view, ok⟩ := p
    exact .inl ⟨view, ok, rfl, by simp [complete, h, finishFrame_eq]⟩

/-- A batch after a batch (R150). -/
theorem feedBytes_append (a b : List Byte) (s : State) :
    feedBytes (a ++ b) s = andThen (feedBytes a s) (feedBytes b) := by
  induction a generalizing s with
  | nil => rfl
  | cons x rest ih =>
    simp only [List.cons_append, feedBytes, andThen_assoc]
    cases feedByte x s <;> simp [ih]

/-- A receiver operation outside a handler (R175). -/
theorem unlessNested_of_ne {s : State} {o : Result} (h : s.st ≠ .frameComplete) : unlessNested s o = o := by
  simp [unlessNested, h]

/-- A BYTE instruction on a byte of its class (R84). -/
theorem whenClass_of_eq {c : ByteClass} {b : Byte} {s : State} {o : Result}
    (h : classify (decodeCtx s) b = .ok c) : whenClass c b s o = o := by
  simp [whenClass, h]

/-- A BYTE instruction answers a next state only on a byte of its class (R84). -/
theorem whenClass_eq_next {c : ByteClass} {b : Byte} {s t : State} {o : Result}
    (h : whenClass c b s o = .next t) : classify (decodeCtx s) b = .ok c ∧ o = .next t := by
  unfold whenClass at h
  split at h
  · rename_i d hd
    by_cases hdc : d = c
    · exact ⟨hdc ▸ hd, by simpa [hdc] using h⟩
    · simp [hdc] at h
  · cases h
  · cases h

end Sys2Proof.Machine
end

