-- ==== Sys2Proof/Laws/PerInstr.lean ====
section
/-! SUPPORT. What holds of the encoding of every instruction: the upper four bits of a command code name the unit, 1
the Checksum Engine and 2 the Frame Receiver (30_encoding.md R87), and the byte classes go over the byte port (R84). -/

namespace Sys2Proof.Laws.OpNamesItsUnit

/-- The unit an instruction belongs to, by the number R87 gives it; nothing for a byte class. -/
def unit : Instr → Option Nat
  | .crcCalc _ _ _ => some 1
  | .crcCalco _ _ _ _ => some 1
  | .rxFeed _ => some 2
  | .rxFeedn _ _ => some 2
  | .rxReset => some 2
  | .rxSetvh _ => some 2
  | .rxSetro _ => some 2
  | .byteMarker _ => none
  | .byteNoise _ => none
  | .byteLen _ => none
  | .byteBadlen _ => none
  | .byteBody _ => none
  | .byteLast _ => none

/-- The unit a signal names. -/
def signalUnit : Signal → Option Nat
  | .command p => some (p.op.toNat / 16)
  | .stream _ => none

/-- The encoding of an instruction names its unit. -/
def Statement (i : Instr) : Prop := signalUnit (encode i) = unit i

theorem crcCalc (seed : Byte) (data : Data) (length : Nat) : Statement (.crcCalc seed data length) := by
  simp [Statement, signalUnit, encode, unit]
theorem crcCalco (offset : Nat) (seed : Byte) (data : Data) (length : Nat) :
    Statement (.crcCalco offset seed data length) := by
  simp [Statement, signalUnit, encode, unit]
theorem rxFeed (b : Byte) : Statement (.rxFeed b) := by
  simp [Statement, signalUnit, encode, unit]
theorem rxFeedn (data : Data) (n : Nat) : Statement (.rxFeedn data n) := by
  simp [Statement, signalUnit, encode, unit]
theorem rxReset : Statement .rxReset := by
  simp [Statement, signalUnit, encode, unit]
theorem rxSetvh (h : HandlerId) : Statement (.rxSetvh h) := by
  simp [Statement, signalUnit, encode, unit]
theorem rxSetro (h : HandlerId) : Statement (.rxSetro h) := by
  simp [Statement, signalUnit, encode, unit]
theorem byteMarker (b : Byte) : Statement (.byteMarker b) := by
  simp [Statement, signalUnit, encode, unit]
theorem byteNoise (b : Byte) : Statement (.byteNoise b) := by
  simp [Statement, signalUnit, encode, unit]
theorem byteLen (b : Byte) : Statement (.byteLen b) := by
  simp [Statement, signalUnit, encode, unit]
theorem byteBadlen (b : Byte) : Statement (.byteBadlen b) := by
  simp [Statement, signalUnit, encode, unit]
theorem byteBody (b : Byte) : Statement (.byteBody b) := by
  simp [Statement, signalUnit, encode, unit]
theorem byteLast (b : Byte) : Statement (.byteLast b) := by
  simp [Statement, signalUnit, encode, unit]

end Sys2Proof.Laws.OpNamesItsUnit
end

