-- ==== Sys2Proof/Tests/Slice0.lean ====
section
/-! SUPPORT. Tests of the model: the ill-formed terms WellFormed refuses, words written out from the spec's
encodings, worked examples and vectors of spec/95_test_vectors.md (each names its row), and a witness for the
hypotheses of every statement that has some. -/

namespace Sys2Proof.Machine.Tests

/-! ### Helpers -/

/-- What `f` shows of the next state, if there is one. -/
def seen {α : Type} (o : Result) (f : State → α) : Option α :=
  match o with
  | .next s => some (f s)
  | _ => none

/-- The refusal of an outcome. -/
def refusalOf : Result → Option Refusal
  | .refused r => some r
  | _ => none

/-- The fault of an outcome. -/
def faultOf : Result → Option Fault
  | .fault r => some r
  | _ => none

def h1 : HandlerId := ⟨1⟩
def h2 : HandlerId := ⟨2⟩
def h7 : HandlerId := ⟨7⟩

/-- The frame F5 of 95_test_vectors.md and F5x, the same with a wrong checksum. -/
def f5 : List Byte := [0xC8, 0x03, 0x02, 0xAA, 0x0B]
def f5x : List Byte := [0xC8, 0x03, 0x02, 0xAA, 0x0A]

/-- A receiver with both slots filled, on a bit-serial engine, at the default parameters. -/
def seeking : State := { State.construct .bitserial defaultConfig with vh := some h1, ro := some h2 }

/-- The same on a table engine. -/
def seekingT : State := { State.construct .table defaultConfig with vh := some h1, ro := some h2 }

/-- After C8. -/
def atLength : State := { seeking with st := .readingLength, buf := [(0, 0xC8)], pos := 1 }

/-- After C8 03 02. -/
def atBody : State :=
  { seeking with st := .readingPayload, buf := [(0, 0xC8), (1, 0x03), (2, 0x02)], pos := 3, need := 2 }

/-- After C8 03 02 AA, one byte short of F5. -/
def atLast : State :=
  { seeking with
    st := .readingPayload, buf := [(0, 0xC8), (1, 0x03), (2, 0x02), (3, 0xAA)], pos := 4, need := 1 }

/-- The cells of Fmax, C8 3E 16 00 01 ... 3B, without its last byte. -/
def fmaxCells : Memory :=
  [(0, 0xC8), (1, 0x3E), (2, 0x16)] ++ (List.range 60).map fun k => (k + 3, BitVec.ofNat 8 k)

/-- One byte short of Fmax, the largest frame. -/
def atLastMax : State := { seeking with st := .readingPayload, buf := fmaxCells, pos := 63, need := 1 }

/-- While a handler runs for F5 (60_exceptions.md R198). -/
def inHandler : State :=
  { seeking with
    st := .frameComplete, buf := [(0, 0xC8), (1, 0x03), (2, 0x02), (3, 0xAA), (4, 0x0B)], pos := 5 }

/-- The parameters of vector B5: the allow-list of C8 and EA. -/
def twoMarkers : Config where
  markers  := [0xC8, 0xEA]
  frameCap := 64
  lenMax   := 62
  ok       := rfl

/-! ### WellFormed refuses -/

theorem test_wf_calc_range : (Instr.crcCalc 0 (.buffer [0xC8]) 2).wf defaultConfig = false := by decide
theorem test_wf_calc_null : (Instr.crcCalc 0 .null 1).wf defaultConfig = false := by decide
theorem test_wf_calco_range : (Instr.crcCalco 2 0 (.buffer f5) 4).wf defaultConfig = false := by decide
theorem test_wf_feedn_range : (Instr.rxFeedn (.buffer f5) 6).wf defaultConfig = false := by decide
theorem test_wf_marker : (Instr.byteMarker 0xEA).wf defaultConfig = false := by decide
theorem test_wf_noise : (Instr.byteNoise 0xC8).wf defaultConfig = false := by decide
theorem test_wf_len : (Instr.byteLen 0x01).wf defaultConfig = false ∧ (Instr.byteLen 0x3F).wf defaultConfig = false := by
  decide
theorem test_wf_badlen :
    (Instr.byteBadlen 0x02).wf defaultConfig = false ∧ (Instr.byteBadlen 0x3E).wf defaultConfig = false := by decide
theorem test_wf_accepts : (Instr.crcCalco 5 0x5A (.buffer f5) 0).wf defaultConfig = true ∧
    (Instr.crcCalc 0 .null 0).wf defaultConfig = true ∧ (Instr.byteLen 0x3E).wf defaultConfig = true := by decide
theorem test_config_refuses : paramsOk [0xC8, 0x00] 64 62 = false ∧ paramsOk [0xEA] 64 62 = false ∧
    paramsOk [0xC8] 64 63 = false ∧ paramsOk [0xC8] 258 62 = false ∧ paramsOk [0xC8] 64 1 = false := by decide

/-! ### Decoding, from 30_encoding.md R84, R87, R88 -/

theorem test_decode_calc : (decodeCommand { op := 0b00010000, seed := 0x8F, data := .buffer [0xBE], length := 1 }).toOption =
    some (.crcCalc 0x8F (.buffer [0xBE]) 1) := by decide
theorem test_decode_calco :
    (decodeCommand { op := 0b00010001, offset := 2, seed := 0x5A, data := .buffer f5, length := 3 }).toOption =
    some (.crcCalco 2 0x5A (.buffer f5) 3) := by decide
theorem test_decode_feed : (decodeCommand { op := 0b00100000, b := 0xC8 }).toOption = some (.rxFeed 0xC8) := by decide
theorem test_decode_feedn : (decodeCommand { op := 0b00100001, data := .buffer f5, n := 5 }).toOption =
    some (.rxFeedn (.buffer f5) 5) := by decide
theorem test_decode_reset : (decodeCommand { op := 0b00100010 }).toOption = some .rxReset := by decide
theorem test_decode_setvh : (decodeCommand { op := 0b00100011, h := h7 }).toOption = some (.rxSetvh h7) := by decide
theorem test_decode_setro : (decodeCommand { op := 0b00100100, h := h2 }).toOption = some (.rxSetro h2) := by decide
theorem test_decode_marker : (decode (decodeCtx seeking) (.stream 0b11001000)).toOption = some (.byteMarker 0xC8) := by
  decide
theorem test_decode_noise : (decode (decodeCtx seeking) (.stream 0b11101010)).toOption = some (.byteNoise 0xEA) := by
  decide
theorem test_decode_len : (decode (decodeCtx atLength) (.stream 0b00111110)).toOption = some (.byteLen 0x3E) := by decide
theorem test_decode_badlen : (decode (decodeCtx atLength) (.stream 0b00111111)).toOption = some (.byteBadlen 0x3F) := by
  decide
theorem test_decode_body : (decode (decodeCtx atBody) (.stream 0b11001000)).toOption = some (.byteBody 0xC8) := by decide
theorem test_decode_last : (decode (decodeCtx atLast) (.stream 0b00001011)).toOption = some (.byteLast 0x0B) := by decide

/-- Vector K7: the codes 0x25, 0x00 and 0x12 are reserved. -/
theorem test_reserved_codes :
    [0x25, 0x00, 0x12].map (fun op : Byte => refusalOf (step { seeking with inbox := [.command { op := op }] })) =
      [some (.reservedCommand 0x25), some (.reservedCommand 0x00), some (.reservedCommand 0x12)] := by decide

/-- Every row of the table with a fixed pattern runs as the first instruction after reset. -/
theorem test_table_words_run_after_reset :
    [0x10, 0x11, 0x20, 0x21, 0x22, 0x23, 0x24, 0xC8].map (fun w =>
      seen (step (State.reset.withFetchWord 8 w)) fun s => (s.results, s.st)) =
    [some ([0], .seekingMarker), some ([0], .seekingMarker), some ([], .seekingMarker), some ([], .seekingMarker),
      some ([], .seekingMarker), some ([], .seekingMarker), some ([], .seekingMarker), some ([], .readingLength)] := by
  decide

/-- The two registrations among them fill their slots. -/
theorem test_table_words_register :
    [0x22, 0x23, 0x24].map (fun w => seen (step (State.reset.withFetchWord 8 w)) fun s => (s.vh, s.ro)) =
    [some (none, none), some (some ⟨0⟩, none), some (none, some ⟨0⟩)] := by decide

/-! ### The Checksum Engine -/

/-- The worked values of R110. -/
theorem test_round8 : [0x00, 0x01, 0x80, 0x02, 0xFF, 0xD5].map round8 = [0x00, 0xD5, 0xEF, 0x7F, 0xF9, 0x0B] := by
  decide

/-- The values after each of the eight rounds on 0x80 (95_test_vectors.md section 2.1). -/
theorem test_rounds : (List.range 9).map (fun k => rounds k 0x80) =
    [0x80, 0xD5, 0x7F, 0xFE, 0x29, 0x52, 0xA4, 0x9D, 0xEF] := by decide

/-- The first half of the table listed in R113. -/
def listedLow : List Byte :=
  [0x00, 0xD5, 0x7F, 0xAA, 0xFE, 0x2B, 0x81, 0x54, 0x29, 0xFC, 0x56, 0x83, 0xD7, 0x02, 0xA8, 0x7D] ++
  [0x52, 0x87, 0x2D, 0xF8, 0xAC, 0x79, 0xD3, 0x06, 0x7B, 0xAE, 0x04, 0xD1, 0x85, 0x50, 0xFA, 0x2F] ++
  [0xA4, 0x71, 0xDB, 0x0E, 0x5A, 0x8F, 0x25, 0xF0, 0x8D, 0x58, 0xF2, 0x27, 0x73, 0xA6, 0x0C, 0xD9] ++
  [0xF6, 0x23, 0x89, 0x5C, 0x08, 0xDD, 0x77, 0xA2, 0xDF, 0x0A, 0xA0, 0x75, 0x21, 0xF4, 0x5E, 0x8B] ++
  [0x9D, 0x48, 0xE2, 0x37, 0x63, 0xB6, 0x1C, 0xC9, 0xB4, 0x61, 0xCB, 0x1E, 0x4A, 0x9F, 0x35, 0xE0] ++
  [0xCF, 0x1A, 0xB0, 0x65, 0x31, 0xE4, 0x4E, 0x9B, 0xE6, 0x33, 0x99, 0x4C, 0x18, 0xCD, 0x67, 0xB2] ++
  [0x39, 0xEC, 0x46, 0x93, 0xC7, 0x12, 0xB8, 0x6D, 0x10, 0xC5, 0x6F, 0xBA, 0xEE, 0x3B, 0x91, 0x44] ++
  [0x6B, 0xBE, 0x14, 0xC1, 0x95, 0x40, 0xEA, 0x3F, 0x42, 0x97, 0x3D, 0xE8, 0xBC, 0x69, 0xC3, 0x16]

/-- The second half. -/
def listedHigh : List Byte :=
  [0xEF, 0x3A, 0x90, 0x45, 0x11, 0xC4, 0x6E, 0xBB, 0xC6, 0x13, 0xB9, 0x6C, 0x38, 0xED, 0x47, 0x92] ++
  [0xBD, 0x68, 0xC2, 0x17, 0x43, 0x96, 0x3C, 0xE9, 0x94, 0x41, 0xEB, 0x3E, 0x6A, 0xBF, 0x15, 0xC0] ++
  [0x4B, 0x9E, 0x34, 0xE1, 0xB5, 0x60, 0xCA, 0x1F, 0x62, 0xB7, 0x1D, 0xC8, 0x9C, 0x49, 0xE3, 0x36] ++
  [0x19, 0xCC, 0x66, 0xB3, 0xE7, 0x32, 0x98, 0x4D, 0x30, 0xE5, 0x4F, 0x9A, 0xCE, 0x1B, 0xB1, 0x64] ++
  [0x72, 0xA7, 0x0D, 0xD8, 0x8C, 0x59, 0xF3, 0x26, 0x5B, 0x8E, 0x24, 0xF1, 0xA5, 0x70, 0xDA, 0x0F] ++
  [0x20, 0xF5, 0x5F, 0x8A, 0xDE, 0x0B, 0xA1, 0x74, 0x09, 0xDC, 0x76, 0xA3, 0xF7, 0x22, 0x88, 0x5D] ++
  [0xD6, 0x03, 0xA9, 0x7C, 0x28, 0xFD, 0x57, 0x82, 0xFF, 0x2A, 0x80, 0x55, 0x01, 0xD4, 0x7E, 0xAB] ++
  [0x84, 0x51, 0xFB, 0x2E, 0x7A, 0xAF, 0x05, 0xD0, 0xAD, 0x78, 0xD2, 0x07, 0x53, 0x86, 0x2C, 0xF9]

/-- The table listed in R113 is the one constructed. -/
theorem test_table_as_listed : builtTable.toArray.toList = listedLow ++ listedHigh := by decide +kernel

/-- Vector E18, the check string, on both strategies. -/
theorem test_calc_check_string :
    [seeking, seekingT].map (fun s => seen (exec
      (.crcCalc 0x00 (.buffer [0x31, 0x32, 0x33, 0x34, 0x35, 0x36, 0x37, 0x38, 0x39]) 9) s) State.results) =
    [some [0xBC], some [0xBC]] := by decide +kernel

/-- Vectors E2 and O9: null data with length 0 returns the seed, with length 1 is refused. -/
theorem test_calc_null : seen (exec (.crcCalc 0x5A .null 0) seeking) State.results = some [0x5A] ∧
    refusalOf (exec (.crcCalco 0 0x00 .null 1) seeking) = some .rangeOutsideData := by decide

/-- Vector O7: chaining through an offset. -/
theorem test_calco_chained :
    seen (exec (.crcCalco 4 0x8A (.buffer [0x31, 0x32, 0x33, 0x34, 0x35, 0x36, 0x37, 0x38, 0x39]) 5) seeking)
      State.results = some [0xBC] := by decide +kernel

/-- Vectors O5 and O8: zero length at the end of the buffer, and one byte too many. -/
theorem test_calco_end : seen (exec (.crcCalco 5 0x5A (.buffer f5) 0) seeking) State.results = some [0x5A] ∧
    refusalOf (exec (.crcCalco 2 0x00 (.buffer f5) 4) seeking) = some .rangeOutsideData := by decide

/-! ### One input byte: vectors B1 to B21 -/

/-- B1. -/
theorem test_byte_marker :
    seen (exec (.byteMarker 0xC8) seeking) (fun s => (s.st, s.pos, s.buf)) =
      some (.readingLength, 1, [(0, 0xC8)]) := by decide

/-- B5, with a two-member allow-list. -/
theorem test_byte_marker_list :
    seen (exec (.byteMarker 0xEA) { seeking with cfg := twoMarkers }) (fun s => (s.st, s.pos, s.buf)) =
      some (.readingLength, 1, [(0, 0xEA)]) := by decide

/-- B4. -/
theorem test_byte_noise : seen (exec (.byteNoise 0xEA) seeking) (fun s => (s.st, s.pos, s.need, s.buf)) =
      some (.seekingMarker, 0, 0, []) ∧ feedNotes 0xEA seeking = [.unrecognizedMarker] := by decide

/-- B7, the highest legal length. -/
theorem test_byte_len : seen (exec (.byteLen 0x3E) atLength) (fun s => (s.st, s.pos, s.need, s.buf)) =
      some (.readingPayload, 2, 62, [(0, 0xC8), (1, 0x3E)]) := by decide

/-- B10, one above the highest. -/
theorem test_byte_badlen_noise : seen (exec (.byteBadlen 0x3F) atLength) (fun s => (s.st, s.pos, s.need, s.out)) =
      some (.seekingMarker, 0, 0, []) ∧ feedNotes 0x3F atLength = [.invalidLength, .unrecognizedMarker] := by decide

/-- B12, a rejected length that is a marker. -/
theorem test_byte_badlen_marker : seen (exec (.byteBadlen 0xC8) atLength) (fun s => (s.st, s.pos, s.need, s.buf)) =
      some (.readingLength, 1, 0, [(0, 0xC8)]) ∧ feedNotes 0xC8 atLength = [.invalidLength] := by decide

/-- B14, a marker value inside a frame is data. -/
theorem test_byte_body : seen (exec (.byteBody 0xC8) atBody) (fun s => (s.st, s.pos, s.need, s.buf)) =
      some (.readingPayload, 4, 1, [(0, 0xC8), (1, 0x03), (2, 0x02), (3, 0xC8)]) := by decide

/-- B15, a valid frame. -/
theorem test_byte_last_valid : seen (exec (.byteLast 0x0B) atLast) (fun s => (s.st, s.pos, s.need, s.out)) =
      some (.seekingMarker, 0, 0, [.validFrame h1 f5, .rawFrame h2 f5 true]) := by decide +kernel

/-- B16, an invalid one. -/
theorem test_byte_last_invalid : seen (exec (.byteLast 0x0A) atLast) (fun s => (s.st, s.pos, s.need, s.out)) =
      some (.seekingMarker, 0, 0, [.rawFrame h2 f5x false]) ∧ feedNotes 0x0A atLast = [.checksumMismatch] := by
  decide +kernel

/-- B18, no valid-frame handler. -/
theorem test_feed_observer_only : seen (exec (.rxFeed 0x0B) { atLast with vh := none }) State.out =
      some [.rawFrame h2 f5 true] := by decide +kernel

/-- B21, the last byte of the largest frame goes to the last byte of the buffer. -/
theorem test_feed_largest_frame :
    seen (exec (.rxFeed 0xFD) atLastMax) (fun s => (s.st, s.buf.read 63, s.out.length,
      (s.out.head?.map fun e => match e with
        | .validFrame _ view => view.length
        | .rawFrame _ _ _ => 0))) =
      some (.seekingMarker, some 0xFD, 2, some 64) := by decide +kernel

/-- A BYTE instruction out of its class (log 7). -/
theorem test_byte_out_of_class : refusalOf (exec (.byteLen 0x03) seeking) = some .byteOutOfClass := by decide

/-- States R31 excludes (log 23): a store past the buffer, a frame with an unwritten byte, no byte needed. -/
theorem test_unreachable_stops :
    faultOf (exec (.byteBody 0x00) { atBody with pos := 64 }) = some .outsideFrameBuffer ∧
    faultOf (exec (.byteLast 0x0B) { atLast with buf := [(0, 0xC8), (1, 0x03)] }) = some .deadFrameByte ∧
    refusalOf (exec (.rxFeed 0x00) { atLast with need := 0 }) = some .noByteClass := by decide +kernel

/-! ### Batches: sequences of section 2.2 -/

/-- V16: everything at once. -/
theorem test_feedn_v16 :
    seen (exec (.rxFeedn (.buffer ([0x00, 0xC8, 0xC8] ++ f5 ++ [0x13, 0xC8, 0x01] ++
      [0xC8, 0x04, 0x02, 0xAA, 0xAA, 0x9E] ++ f5x ++ [0xC8, 0x05, 0x02, 0xAA, 0xAA, 0xAA, 0x08])) 29) seekingT)
      (fun s => (s.st, s.out)) =
    some (.seekingMarker, [.validFrame h1 f5, .rawFrame h2 f5 true,
      .validFrame h1 [0xC8, 0x04, 0x02, 0xAA, 0xAA, 0x9E], .rawFrame h2 [0xC8, 0x04, 0x02, 0xAA, 0xAA, 0x9E] true,
      .rawFrame h2 f5x false, .validFrame h1 [0xC8, 0x05, 0x02, 0xAA, 0xAA, 0xAA, 0x08],
      .rawFrame h2 [0xC8, 0x05, 0x02, 0xAA, 0xAA, 0xAA, 0x08] true]) := by decide +kernel

/-- V6b: a stale partial frame swallows F5; and the conditions of S6 in order. -/
theorem test_feedn_v6b :
    seen (exec (.rxFeedn (.buffer ([0xC8, 0x05, 0x11, 0x22] ++ f5)) 9) seeking) State.out =
      some [.rawFrame h2 [0xC8, 0x05, 0x11, 0x22, 0xC8, 0x03, 0x02] false] ∧
    batchNotes [0xC8, 0x00, 0xC8] seeking = [.invalidLength, .unrecognizedMarker] := by decide +kernel

/-! ### Receiver control: vectors K3 to K8 -/

/-- K3: the sequencing state is cleared. -/
theorem test_reset : seen (exec .rxReset atBody) (fun s => (s.st, s.pos, s.need)) = some (.seekingMarker, 0, 0) := by
  decide

/-- K3: the slots are kept and nothing is emitted. -/
theorem test_reset_keeps : seen (exec .rxReset atBody) (fun s => (s.vh, s.ro, s.out)) = some (some h1, some h2, []) := by
  decide

/-- K8: refused inside a handler. -/
theorem test_reset_nested : refusalOf (exec .rxReset inHandler) = some .nestedOperation := by decide

/-- K5: the handler is replaced and the frame in progress is not disturbed. -/
theorem test_setvh : seen (exec (.rxSetvh h7) atBody) (fun s => (s.vh, s.ro, s.st, s.pos, s.need)) =
      some (some h7, some h2, .readingPayload, 3, 2) := by decide

/-- K6: a registration made mid-frame applies to that frame. -/
theorem test_setro : seen (execAll [.rxSetro h2, .rxFeed 0x0A] { atLast with ro := none }) State.out =
      some [.rawFrame h2 f5x false] := by decide +kernel

/-! ### Witnesses: the hypotheses of each statement are met -/

theorem inv_seeking : Inv seeking :=
  ⟨trivial, List.Pairwise.nil, by simp [seeking, State.construct], ⟨rfl, rfl⟩⟩
theorem inv_atLength : Inv atLength :=
  ⟨trivial, by decide, by decide, ⟨rfl, rfl, 0xC8, rfl, rfl⟩⟩
theorem inv_atBody : Inv atBody :=
  ⟨trivial, by decide, by decide, ⟨0xC8, 0x03, rfl, rfl, rfl, rfl, by decide, by decide, by decide, by decide⟩⟩
theorem inv_atLast : Inv atLast :=
  ⟨trivial, by decide, by decide, ⟨0xC8, 0x03, rfl, rfl, rfl, rfl, by decide, by decide, by decide, by decide⟩⟩
theorem inv_atLastMax : Inv atLastMax :=
  ⟨trivial, by decide +kernel, by decide +kernel,
    ⟨0xC8, 0x3E, rfl, rfl, rfl, rfl, by decide, by decide, by decide, by decide +kernel⟩⟩
/-- The table engine meets the invariant too. -/
theorem inv_seekingT : Inv seekingT :=
  ⟨by show ∀ v, tableRead builtTable v = round8 v; decide +kernel, List.Pairwise.nil,
    by simp [seekingT, State.construct], ⟨rfl, rfl⟩⟩
/-- F5 is a complete frame; so are the smallest and, by its length, the largest. -/
theorem complete_f5 : CompleteFrame defaultConfig 0xC8 0x03 [0x02, 0xAA] := ⟨by decide, by decide, by decide⟩
theorem complete_smallest : CompleteFrame defaultConfig 0xC8 0x02 [0x7F] := ⟨by decide, by decide, by decide⟩
theorem complete_largest : CompleteFrame defaultConfig 0xC8 0x3E (List.replicate 61 0x00) :=
  ⟨by decide, by decide, by decide⟩

theorem witness_DecodeAndEncodeAgree :
    Instr.rxFeed 0xFF ∈ [Instr.crcCalc 0xFF (.buffer f5) 5, .crcCalco 1 0xFF .null 0, .rxFeed 0xFF,
      .rxFeedn .null 0, .rxReset, .rxSetvh h1, .rxSetro h2] := by decide
/-- A transaction with a value on a port its format does not name, and an input byte. -/
theorem witness_DecodeAndEncodeAgree_signals :
    decode (decodeCtx seeking) (.command { op := 0x22, b := 0x55 }) = .ok .rxReset ∧
    decode (decodeCtx seeking) (.command { op := 0x22 }) = .ok .rxReset ∧
    decode (decodeCtx atLength) (.stream 0x3E) = .ok (.byteLen 0x3E) := ⟨rfl, rfl, rfl⟩
/-- Each clause at the edges of its range. -/
theorem witness_StreamDecodesToTheClassOfTheState :
    (decodeCtx seeking).st = .seekingMarker ∧ (0xC8 : Byte) ∈ defaultConfig.markers ∧
    (0xC9 : Byte) ∉ defaultConfig.markers ∧
    (decodeCtx atLength).st = .readingLength ∧ 2 ≤ (0x02 : Byte).toNat ∧ (0x3E : Byte).toNat ≤ defaultConfig.lenMax ∧
    (0x01 : Byte).toNat < 2 ∧ defaultConfig.lenMax < (0x3F : Byte).toNat ∧
    (decodeCtx atBody).st = .readingPayload ∧ 1 < (decodeCtx atBody).need ∧
    (decodeCtx atLast).st = .readingPayload ∧ (decodeCtx atLast).need = 1 := by decide
theorem witness_EveryByteHasExactlyOneClass : Inv seeking ∧ Inv atLength ∧ Inv atBody ∧ Inv atLast :=
  ⟨inv_seeking, inv_atLength, inv_atBody, inv_atLast⟩
theorem witness_ReservedCommandHasNoStep :
    ({ seeking with inbox := [.command { op := 0x25 }] } : State).inbox = .command { op := 0x25 } :: [] ∧
    (0x25 : Byte) ∉ [(0x10 : Byte), 0x11, 0x20, 0x21, 0x22, 0x23, 0x24] := by decide
theorem witness_StepRunsTheDecodedInstruction :
    ({ seeking with inbox := [.stream 0xC8] } : State).inbox = .stream 0xC8 :: [] ∧
    decode (decodeCtx seeking) (.stream 0xC8) = .ok (.byteMarker 0xC8) ∧
    decode (decodeCtx seeking) (.command { op := 0x12 }) = .error (.reservedCommand 0x12) := ⟨rfl, rfl, rfl⟩
theorem witness_IdleStepHoldsTheState : seeking.inbox = [] := rfl
/-- The statement has no hypothesis; each kind of outcome it compares occurs. -/
theorem witness_StrategiesReturnTheSameByte :
    (∃ t, exec (.crcCalc 0x00 (.buffer f5) 5) seekingT = .next t) ∧
    exec (.crcCalc 0x00 .null 1) seekingT = .refused .rangeOutsideData ∧
    exec (.byteBody 0x00) { atBody with pos := 64 } = .fault .outsideFrameBuffer := ⟨⟨_, rfl⟩, rfl, rfl⟩
theorem witness_EngineComputesTheFold : Engine.Built (.table builtTable) ∧ Engine.Built .bitserial :=
  ⟨inv_seekingT.engine, trivial⟩
theorem witness_CrcCalcReturnsTheChecksum : seekingT.engine.Built ∧ 5 ≤ dataSize (.buffer f5) :=
  ⟨inv_seekingT.engine, by decide⟩
theorem witness_CrcCalcoReturnsTheChecksum : seekingT.engine.Built ∧ 2 + 3 ≤ dataSize (.buffer f5) :=
  ⟨inv_seekingT.engine, by decide⟩
theorem witness_RangeOutsideTheDataIsRefused :
    dataSize .null < 1 ∧ dataSize (.buffer f5) < 2 + 4 ∧ dataSize (.buffer f5) < 6 ∧ seeking.st ≠ .frameComplete := by
  decide
theorem witness_ZeroLengthReturnsTheSeed : 5 ≤ dataSize (.buffer f5) := by decide
theorem witness_ResultDependsOnSeedAndBytesAlone :
    seeking.engine.Built ∧ seekingT.engine.Built ∧ 2 + 2 ≤ dataSize (.buffer f5) ∧
    0 + 2 ≤ dataSize (.buffer [0x02, 0xAA]) ∧
    ∀ k < 2, (dataBytes (.buffer f5))[2 + k]? = (dataBytes (.buffer [0x02, 0xAA]))[0 + k]? :=
  ⟨trivial, inv_seekingT.engine, by decide, by decide, by decide⟩
theorem witness_ChecksumIsAdditive : f5.length = f5x.length := by decide
theorem witness_ResidueIsZero : Engine.Built .bitserial := trivial
theorem witness_EveryBitFlipChangesTheChecksum : 0 < f5.length ∧ 4 < f5.length ∧ 0 < 8 ∧ 7 < 8 := by decide
theorem witness_SeekingByteEffect : seeking.st = .seekingMarker ∧ (0xC8 : Byte) ∈ seeking.cfg.markers ∧
    (0xC9 : Byte) ∉ seeking.cfg.markers := by decide
theorem witness_AcceptedLengthEffect : atLength.st = .readingLength ∧ 2 ≤ (0x02 : Byte).toNat ∧
    (0x02 : Byte).toNat ≤ atLength.cfg.lenMax ∧ 2 ≤ (0x3E : Byte).toNat ∧ (0x3E : Byte).toNat ≤ atLength.cfg.lenMax := by
  decide
theorem witness_RejectedLengthEffect : atLength.st = .readingLength ∧
    ((0xC8 : Byte).toNat < 2 ∨ atLength.cfg.lenMax < (0xC8 : Byte).toNat) ∧ (0xC8 : Byte) ∈ atLength.cfg.markers ∧
    ((0x01 : Byte).toNat < 2 ∨ atLength.cfg.lenMax < (0x01 : Byte).toNat) ∧ (0x01 : Byte) ∉ atLength.cfg.markers ∧
    ((0x3F : Byte).toNat < 2 ∨ atLength.cfg.lenMax < (0x3F : Byte).toNat) ∧ (0x3F : Byte) ∉ atLength.cfg.markers := by
  decide
theorem witness_PayloadByteIsStored_entry : Inv atBody ∧ atBody.st = .readingPayload := ⟨inv_atBody, rfl⟩
theorem witness_PayloadByteIsStored : (atBody.st = .readingPayload ∧ atBody.pos < atBody.cfg.frameCap ∧ 1 < atBody.need) ∧
    (atLastMax.st = .readingPayload ∧ atLastMax.pos < atLastMax.cfg.frameCap ∧ atLastMax.need = 1) := by decide
theorem witness_CompletedFrameEffect : Inv atLast ∧ atLast.st = .readingPayload ∧ atLast.need = 1 :=
  ⟨inv_atLast, rfl, rfl⟩
theorem witness_CompletedFrameReturnsToSeeking : Inv atLastMax ∧ atLastMax.st = .readingPayload ∧ atLastMax.need = 1 :=
  ⟨inv_atLastMax, rfl, rfl⟩
theorem witness_MismatchIsVisibleToTheObserverAlone : Inv atLast ∧ atLast.st = .readingPayload ∧ atLast.need = 1 ∧
    [(0x02 : Byte), 0xAA].length + 2 = atLast.pos ∧
    (∀ k < [(0x02 : Byte), 0xAA].length, atLast.buf.read (k + 2) = [(0x02 : Byte), 0xAA][k]?) ∧
    (0x0A : Byte) ≠ crc8 0x00 [0x02, 0xAA] :=
  ⟨inv_atLast, rfl, rfl, rfl, by decide, by decide +kernel⟩
/-- The second clause: an invalid length and a noise byte. -/
theorem witness_MismatchIsVisibleToTheObserverAlone_others : Inv atLength ∧ feedNotes 0x3F atLength ≠ [] ∧
    feedNotes 0x3F atLength ≠ [.checksumMismatch] ∧ Inv seeking ∧ feedNotes 0xEA seeking ≠ [] ∧
    feedNotes 0xEA seeking ≠ [.checksumMismatch] :=
  ⟨inv_atLength, by decide, by decide, inv_seeking, by decide, by decide⟩
theorem witness_ByteOutsideItsClassIsRefused :
    classify (decodeCtx seeking) 0xC8 = .ok .marker ∧ ByteClass.marker ≠ .noise := ⟨rfl, by decide⟩
theorem witness_RxFeedRunsTheClassOfItsByte :
    decode (decodeCtx atLast) (.stream 0x0B) = .ok (.byteLast 0x0B) ∧ Inv atLast := ⟨rfl, inv_atLast⟩
/-- An operation that is no feed. -/
theorem witness_StateGraphIsComplete_others : ∃ t, exec (.rxSetvh h7) atBody = .next t := ⟨_, rfl⟩
/-- Each state of the graph. -/
theorem witness_StateGraphIsComplete : Inv seeking ∧ Inv atLength ∧ Inv atBody ∧ Inv atLast :=
  ⟨inv_seeking, inv_atLength, inv_atBody, inv_atLast⟩
theorem witness_RxFeednIsItsFeedsInOrder : Inv seeking ∧ 5 ≤ dataSize (.buffer f5) ∧ 0 ≤ dataSize .null :=
  ⟨inv_seeking, by decide, by decide⟩
theorem witness_RxFeedFrame : ∃ t, exec (.rxFeed 0xC8) seeking = .next t ∧ storeIndex 0xC8 seeking = some 0 :=
  ⟨_, rfl, rfl⟩
theorem witness_RxFeednFrame : ∃ t, exec (.rxFeedn (.buffer [0xC8, 0x03]) 2) seeking = .next t ∧
    storeIndices [0xC8, 0x03] seeking = [0, 1] := ⟨_, rfl, rfl⟩
theorem witness_NoStoreLeavesTheBuffer : Inv atLastMax ∧ storeIndex 0xFD atLastMax = some 63 ∧ Inv atBody ∧
    ∃ t, exec (.rxFeed 0xAA) atBody = .next t ∧ t.st = .readingPayload :=
  ⟨inv_atLastMax, rfl, inv_atBody, _, rfl, rfl⟩
theorem witness_ChunkingDoesNotMatter : Inv seeking ∧
    [Instr.rxFeed 0xC8, .rxFeedn (.buffer [0x03, 0x02]) 2].map fedBytes = [[0xC8], [0x03, 0x02]].map some :=
  ⟨inv_seeking, by decide⟩
theorem witness_WellFormedFrameIsDelivered : Inv seeking ∧ seeking.st = .seekingMarker ∧
    (∀ b ∈ [(0x00 : Byte), 0x01, 0xFF], b ∉ seeking.cfg.markers) ∧
    CompleteFrame seeking.cfg 0xC8 0x03 [0x02, 0xAA] := ⟨inv_seeking, rfl, by decide, complete_f5⟩
theorem witness_FrameBuiltWithTheEngineIsAccepted : Inv seeking ∧ seeking.st = .seekingMarker ∧
    CompleteFrame seeking.cfg 0xC8 0x02 [0x7F] := ⟨inv_seeking, rfl, complete_smallest⟩
theorem witness_NoEventBeforeTheLastByte : Inv seeking ∧ seeking.st = .seekingMarker ∧
    CompleteFrame seeking.cfg 0xC8 0x03 [0x02, 0xAA] ∧ 4 < (frameBytes 0xC8 0x03 [0x02, 0xAA] 0x0B).length :=
  ⟨inv_seeking, rfl, complete_f5, by decide⟩
theorem witness_FramesAreDeliveredInOrder : Inv seeking ∧ seeking.st = .seekingMarker ∧
    ∀ f ∈ [((0xC8 : Byte), (0x03 : Byte), [(0x02 : Byte), 0xAA]), (0xC8, 0x3E, List.replicate 61 0x00)],
      CompleteFrame seeking.cfg f.1 f.2.1 f.2.2 := by
  refine ⟨inv_seeking, rfl, ?_⟩
  intro f hf
  rcases List.mem_cons.mp hf with rfl | hf
  · exact complete_f5
  · rcases List.mem_cons.mp hf with rfl | hf
    · exact complete_largest
    · cases hf
theorem witness_ResynchronizationIsAlwaysPossible : Inv atBody ∧ atBody.st = .readingPayload ∧
    [(0x00 : Byte), 0xFF].length = atBody.need ∧ Inv atLength ∧ atLength.st = .readingLength ∧
    (0x3F : Byte) ∉ atLength.cfg.markers ∧ ((0x3F : Byte).toNat < 2 ∨ atLength.cfg.lenMax < (0x3F : Byte).toNat) :=
  ⟨inv_atBody, rfl, rfl, inv_atLength, rfl, by decide, by decide⟩
theorem witness_RxResetEffect : atBody.st ≠ .frameComplete := by decide
theorem witness_RxSetvhEffect : atBody.st ≠ .frameComplete ∧ seeking.st ≠ .frameComplete := by decide
theorem witness_RxSetroEffect : atBody.st ≠ .frameComplete ∧ seeking.st ≠ .frameComplete := by decide
theorem witness_RegistrationAppliesToTheFrameInProgress : Inv atLast ∧ atLast.st = .readingPayload ∧ atLast.need = 1 :=
  ⟨inv_atLast, rfl, rfl⟩
theorem witness_OperationFromInsideAHandlerIsRefused : inHandler.st = .frameComplete ∧
    Instr.rxReset ∈ [Instr.rxFeed 0, .rxFeedn .null 0, .rxReset, .rxSetvh h1, .rxSetro h2, classInstr 0 .body] ∧
    2 + 2 ≤ dataSize (.buffer f5) := by decide
theorem witness_HandlerEntryState : Inv atLast ∧ atLast.st = .readingPayload ∧ atLast.need = 1 :=
  ⟨inv_atLast, rfl, rfl⟩
theorem witness_EveryStepKeepsTheInvariant :
    Inv seeking ∧ ∃ t, step seeking = .next t := ⟨inv_seeking, _, rfl⟩
/-- The same with an operation to run. -/
theorem witness_EveryStepKeepsTheInvariant_running :
    Inv { atLast with inbox := [encode (.rxFeed 0x0A)] } ∧
    ∃ t, step { atLast with inbox := [encode (.rxFeed 0x0A)] } = .next t :=
  ⟨⟨inv_atLast.1, inv_atLast.2, inv_atLast.3, inv_atLast.4⟩, _, rfl⟩
theorem witness_ConformingHostIsNeverStopped : Inv { seeking with inbox := [encode (.rxFeedn (.buffer f5) 5)] } ∧
    HostOk { seeking with inbox := [encode (.rxFeedn (.buffer f5) 5)] } :=
  ⟨⟨inv_seeking.1, inv_seeking.2, inv_seeking.3, inv_seeking.4⟩, by
    intro sig hs
    simp only [List.mem_singleton] at hs
    subst hs
    decide⟩
theorem witness_TableAndParametersAreNeverWritten : ∃ t, exec (.rxFeed 0xC8) seekingT = .next t := ⟨_, rfl⟩
theorem witness_SlotsChangeByRegistrationAlone : ∃ t, exec (.rxSetvh h7) seeking = .next t ∧
    (∀ h, Instr.rxSetvh h7 ≠ .rxSetro h) ∧ seeking.vh.isSome = true ∧ seeking.ro.isSome = true :=
  ⟨_, rfl, by simp, rfl, rfl⟩
theorem witness_EventsComeOnlyFromCompletedFrames :
    (∃ t, exec (.rxFeed 0xC8) { seeking with vh := none, ro := none } = .next t) ∧
    (∃ t, exec (.rxFeed 0xC8) seeking = .next t) ∧ (∀ b, Instr.rxFeed 0xC8 ≠ .byteLast b) ∧
    (∀ b, Instr.rxFeed 0xC8 = .rxFeed b → seeking.st ≠ .readingPayload ∨ seeking.need ≠ 1) ∧
    ∀ data n, Instr.rxFeed 0xC8 ≠ .rxFeedn data n :=
  ⟨⟨_, rfl⟩, ⟨_, rfl⟩, by simp, fun _ _ => .inl (by decide), by simp⟩
theorem witness_ObserverDoesNotAlterDelivery : ∃ t, feedBytes [0xC8, 0x03] seeking = .next t ∧
    t.out = seeking.out ++ [] := ⟨_, rfl, rfl⟩
theorem witness_NoResidueAfterReset : Inv atBody := inv_atBody
theorem witness_EqualReadsAreEqualBuffers : Memory.wf [(0, 0xC8), (1, 0x03)] ∧
    ∀ i, Memory.read [(0, 0xC8), (1, 0x03)] i = Memory.read [(0, 0xC8), (1, 0x03)] i := ⟨by decide, fun _ => rfl⟩

end Sys2Proof.Machine.Tests
end

/-! ### The engine a receiver is bound to is never visible (40_checksum_engine.md R115)

An operation is blind to the engine when running it after the engine was exchanged for another built one is running it
and exchanging the engine then. Sequencing and branching on anything but the engine keep this, so it is carried from
the single updates up to `exec`; the engine's value enters in two places alone, `calculate` and `checkFrame`. -/

namespace Sys2Proof.Machine

/-- Either strategy's engine is as R37 wants it. -/
theorem buildEngine_built (strategy : Strategy) : (buildEngine strategy).Built := by
  cases strategy with
  | table => intro v; simp [tableRead, builtTable, allBytes]
  | bitserial => trivial

/-- A built engine computes `CRC8`, whichever its strategy (R112, R114). -/
theorem engineCrc_of_built {e : Engine} (h : e.Built) (seed : Byte) (bytes : List Byte) :
    engineCrc e seed bytes = crc8 seed bytes := by
  have hstep : engineUpdate e = update := funext₂ (engineUpdate_of_built h)
  rw [engineCrc, hstep, crc8]

/-- The same block, bound to the engine `e`. -/
def rebind (e : Engine) (s : State) : State := { s with engine := e }

section
variable (e : Engine) (s : State)

@[simp] theorem rebind_cfg : (rebind e s).cfg = s.cfg := rfl
@[simp] theorem rebind_engine : (rebind e s).engine = e := rfl
@[simp] theorem rebind_st : (rebind e s).st = s.st := rfl
@[simp] theorem rebind_pos : (rebind e s).pos = s.pos := rfl
@[simp] theorem rebind_need : (rebind e s).need = s.need := rfl
@[simp] theorem rebind_self : rebind s.engine s = s := rfl
@[simp] theorem decodeCtx_rebind : decodeCtx (rebind e s) = decodeCtx s := rfl
@[simp] theorem readByte_rebind (i : Nat) : readByte (rebind e s) i = readByte s i := rfl

@[simp] theorem readRange_rebind (i n : Nat) : readRange (rebind e s) i n = readRange s i n := by
  induction n generalizing i with
  | zero => rfl
  | succ n ih => simp only [readRange, readByte_rebind, ih]

end

/-- The check of a complete frame has one result on every built engine (R115, R145). -/
theorem checkFrame_rebind {e : Engine} {s : State} (hs : s.engine.Built) (he : e.Built) :
    checkFrame (rebind e s) = checkFrame s := by
  simp only [checkFrame, verdict, readRange_rebind, readByte_rebind, rebind_pos, rebind_engine,
    engineCrc_of_built hs, engineCrc_of_built he]

/-- `f` does not depend on the engine beyond keeping it: exchanging one built engine for another commutes with `f`. -/
def EngineBlind (f : State → Result) : Prop :=
  ∀ (s : State) (e : Engine), s.engine.Built → e.Built →
    f (rebind e s) = andThen (f s) fun t => .next (rebind e t)

namespace EngineBlind

/-- A blind operation keeps the engine: exchange it for itself. -/
theorem engine_eq {f : State → Result} (hf : EngineBlind f) {s t : State} (hs : s.engine.Built)
    (h : f s = .next t) : t.engine = s.engine := by
  have hself := hf s s.engine hs hs
  rw [rebind_self, h, andThen_next] at hself
  injection hself with ht
  rw [ht, rebind_engine]

/-- An update of the state that neither reads nor writes the engine. -/
theorem next {g : State → State} (hg : ∀ e s, g (rebind e s) = rebind e (g s)) :
    EngineBlind fun s => .next (g s) := by
  intro s e _ _
  simp only [hg, andThen_next]

theorem fault (r : Fault) : EngineBlind fun _ => .fault r := fun _ _ _ _ => rfl

theorem refused (r : Refusal) : EngineBlind fun _ => .refused r := fun _ _ _ _ => rfl

theorem andThen {f g : State → Result} (hf : EngineBlind f) (hg : EngineBlind g) :
    EngineBlind fun s => Machine.andThen (f s) g := by
  intro s e hs he
  simp only [hf s e hs he, andThen_assoc]
  cases h : f s with
  | next t =>
    have ht : t.engine.Built := hf.engine_eq hs h ▸ hs
    exact hg t e ht he
  | fault r => rfl
  | refused r => rfl

/-- A branch on a condition that does not look at the engine. -/
theorem ite {p : State → Prop} [∀ s, Decidable (p s)] (hp : ∀ e s, p (rebind e s) ↔ p s)
    {f g : State → Result} (hf : EngineBlind f) (hg : EngineBlind g) :
    EngineBlind fun s => if p s then f s else g s := by
  intro s e hs he
  by_cases h : p s
  · simpa only [hp, h, if_true] using hf s e hs he
  · simpa only [hp, h, if_false] using hg s e hs he

theorem unlessNested {f : State → Result} (hf : EngineBlind f) :
    EngineBlind fun s => Machine.unlessNested s (f s) :=
  ite (fun _ _ => Iff.rfl) (refused _) hf

theorem whenClass (c : ByteClass) (b : Byte) {f : State → Result} (hf : EngineBlind f) :
    EngineBlind fun s => Machine.whenClass c b s (f s) := by
  intro s e hs he
  simp only [Machine.whenClass, decodeCtx_rebind]
  cases classify (decodeCtx s) b with
  | ok d =>
    by_cases h : d = c
    · simpa only [h, if_true] using hf s e hs he
    · simp only [h, if_false, andThen_refused]
  | error err => cases err <;> rfl

end EngineBlind

/-! #### The shared operations -/

theorem storeByte_blind (i : Nat) (v : Byte) : EngineBlind (storeByte i v) :=
  .ite (fun _ _ => Iff.rfl) (.next fun _ _ => rfl) (.fault _)

theorem seek_blind (b : Byte) : EngineBlind (seek b) :=
  .ite (fun _ _ => Iff.rfl) ((storeByte_blind 0 b).andThen (.next fun _ _ => rfl)) (.next fun _ _ => rfl)

theorem acceptLen_blind (b : Byte) : EngineBlind (acceptLen b) :=
  (storeByte_blind 1 b).andThen (.next fun _ _ => rfl)

theorem toSeeking_blind : EngineBlind fun s => .next (toSeeking s) := .next fun _ _ => rfl

theorem rejectLen_blind (b : Byte) : EngineBlind (rejectLen b) := toSeeking_blind.andThen (seek_blind b)

theorem storeBody_blind (b : Byte) : EngineBlind (storeBody b) := fun s =>
  ((storeByte_blind s.pos b).andThen (.next (g := advance) fun _ _ => rfl)) s

/-- The handlers are told of the view and the verdict, never of the engine (R146 to R148). -/
theorem finishFrame_rebind (view : List Byte) (ok : Bool) (e : Engine) (s : State) :
    finishFrame view ok (rebind e s) = rebind e (finishFrame view ok s) := by
  simp only [finishFrame_eq, rebind]

theorem complete_blind : EngineBlind complete := by
  intro s e hs he
  simp only [complete, checkFrame_rebind hs he]
  cases checkFrame s with
  | none => rfl
  | some result => simp only [finishFrame_rebind, andThen_next]

theorem receive_blind (b : Byte) : EngineBlind (receive b) :=
  (storeBody_blind b).andThen
    (.ite (p := fun t => t.need = 0) (fun _ _ => Iff.rfl) complete_blind (.next fun _ _ => rfl))

theorem feedByte_blind (b : Byte) : EngineBlind (feedByte b) := by
  intro s e hs he
  simp only [feedByte, rebind_st]
  cases s.st with
  | seekingMarker => exact seek_blind b s e hs he
  | readingLength =>
    exact EngineBlind.ite (p := fun s => isLength s.cfg b = true) (fun _ _ => Iff.rfl) (acceptLen_blind b)
      (rejectLen_blind b) s e hs he
  | readingPayload =>
    exact EngineBlind.ite (p := fun s => s.need = 0) (fun _ _ => Iff.rfl) (.refused _) (receive_blind b) s e hs he
  | frameComplete => rfl

theorem feedBytes_blind (bytes : List Byte) : EngineBlind (feedBytes bytes) := by
  induction bytes with
  | nil => exact .next fun _ _ => rfl
  | cons b rest ih => exact (feedByte_blind b).andThen ih

theorem calculate_blind (offset : Nat) (seed : Byte) (data : Data) (length : Nat) :
    EngineBlind (calculate offset seed data length) := by
  intro s e hs he
  simp only [calculate, rebind_engine, engineCrc_of_built hs, engineCrc_of_built he]
  cases dataRange data offset length <;> rfl

theorem execRxFeedn_blind (data : Data) (n : Nat) : EngineBlind (execRxFeedn data n) := by
  refine .unlessNested ?_
  cases dataRange data 0 n with
  | none => exact .refused _
  | some bytes => exact feedBytes_blind bytes

/-- No instruction shows which of two built engines it ran on (R115). -/
theorem exec_blind (i : Instr) : EngineBlind (exec i) := by
  cases i with
  | crcCalc seed data length => exact calculate_blind 0 seed data length
  | crcCalco offset seed data length => exact calculate_blind offset seed data length
  | rxFeed b => exact feedByte_blind b
  | rxFeedn data n => exact execRxFeedn_blind data n
  | rxReset => exact .unlessNested toSeeking_blind
  | rxSetvh h => exact .unlessNested (.next fun _ _ => rfl)
  | rxSetro h => exact .unlessNested (.next fun _ _ => rfl)
  | byteMarker b => exact .whenClass .marker b (seek_blind b)
  | byteNoise b => exact .whenClass .noise b (seek_blind b)
  | byteLen b => exact .whenClass .len b (acceptLen_blind b)
  | byteBadlen b => exact .whenClass .badLen b (rejectLen_blind b)
  | byteBody b => exact .whenClass .body b (storeBody_blind b)
  | byteLast b => exact .whenClass .last b ((storeBody_blind b).andThen complete_blind)

/-- Settles O12: both built engines compute `CRC8`, and `exec` commutes with exchanging the one for the other. -/
theorem strategiesReturnTheSameByte : Obligations.StrategiesReturnTheSameByte := by
  refine ⟨fun seed bytes => ?_, fun i s => ?_⟩
  · rw [engineCrc_of_built (buildEngine_built .table), engineCrc_of_built (buildEngine_built .bitserial)]
  · have hexchange : exec i { s with engine := buildEngine .bitserial } =
        andThen (exec i { s with engine := buildEngine .table }) fun t =>
          .next { t with engine := buildEngine .bitserial } :=
      exec_blind i (rebind (buildEngine .table) s) _ (buildEngine_built .table) (buildEngine_built .bitserial)
    rw [hexchange]
    cases exec i { s with engine := buildEngine .table } <;> rfl

end Sys2Proof.Machine

/-! ### One input byte, class by class (41_frame_receiver.md R141 to R148)

The class of a byte and the conditions it notes follow from the receiver's phase alone. At a boundary in the payload
phase every byte below `pos` is written, so the byte that completes a frame leaves the whole frame readable and its
check cannot fail. -/

namespace Sys2Proof.Machine

section
variable {s : State} {b : Byte}

/-! #### `SEEKING_MARKER` -/

/-- Membership in the allow-list as a proposition (R7). -/
theorem isMarker_iff_mem {c : Config} {b : Byte} : isMarker c b = true ↔ b ∈ c.markers := List.contains_iff_mem

theorem isMarker_eq_false_iff {c : Config} {b : Byte} : isMarker c b = false ↔ b ∉ c.markers := by
  rw [← isMarker_iff_mem, Bool.not_eq_true]

/-- A byte is a marker or noise while the receiver seeks (R84). -/
theorem classify_of_seekingMarker (hst : s.st = .seekingMarker) :
    classify (decodeCtx s) b = .ok (if isMarker s.cfg b then .marker else .noise) := by
  rw [classify, decodeCtx_st, hst, decodeCtx_cfg]

theorem feedNotes_of_seekingMarker (hst : s.st = .seekingMarker) : feedNotes b s = seekNotes s.cfg b := by
  simp only [feedNotes, hst]

theorem exec_byteMarker_of_mem (hst : s.st = .seekingMarker) (hb : b ∈ s.cfg.markers) :
    exec (.byteMarker b) s = seek b s :=
  whenClass_of_eq (by rw [classify_of_seekingMarker hst, if_pos (isMarker_iff_mem.mpr hb)])

theorem exec_byteNoise_of_notMem (hst : s.st = .seekingMarker) (hb : b ∉ s.cfg.markers) :
    exec (.byteNoise b) s = seek b s :=
  whenClass_of_eq (by rw [classify_of_seekingMarker hst, isMarker_eq_false_iff.mpr hb, if_neg Bool.false_ne_true])

theorem seek_of_mem (hb : b ∈ s.cfg.markers) :
    seek b s = .next { s with buf := s.buf.write 0 b, pos := 1, st := .readingLength } := by
  rcases seek_spec b s with ⟨-, h⟩ | ⟨hm, -⟩
  · exact h
  · exact absurd hb (isMarker_eq_false_iff.mp hm)

theorem seek_of_notMem (hb : b ∉ s.cfg.markers) : seek b s = .next s := by
  rcases seek_spec b s with ⟨hm, -⟩ | ⟨-, h⟩
  · exact absurd (isMarker_iff_mem.mp hm) hb
  · exact h

theorem seekNotes_of_mem {c : Config} (hb : b ∈ c.markers) : seekNotes c b = [] := by
  rw [seekNotes, if_pos (isMarker_iff_mem.mpr hb)]

theorem seekNotes_of_notMem {c : Config} (hb : b ∉ c.markers) : seekNotes c b = [.unrecognizedMarker] := by
  rw [seekNotes, isMarker_eq_false_iff.mpr hb, if_neg Bool.false_ne_true]

/-! #### `READING_PAYLOAD` -/

theorem classify_of_payload_body (hst : s.st = .readingPayload) (hneed : 1 < s.need) :
    classify (decodeCtx s) b = .ok .body := by
  obtain ⟨k, hk⟩ := Nat.exists_eq_add_of_le' hneed
  simp only [classify, decodeCtx_st, decodeCtx_need, hst, hk]

theorem classify_of_payload_last (hst : s.st = .readingPayload) (hneed : s.need = 1) :
    classify (decodeCtx s) b = .ok .last := by
  simp only [classify, decodeCtx_st, decodeCtx_need, hst, hneed]

/-- Nothing is noted before the frame's last byte. -/
theorem feedNotes_of_payload_body (hst : s.st = .readingPayload) (hneed : 1 < s.need) : feedNotes b s = [] := by
  simp only [feedNotes, hst, if_neg hneed.ne']

/-- The store of R144 while more is needed. -/
theorem storeBody_of_more (hpos : s.pos < s.cfg.frameCap) (hneed : 1 < s.need) :
    storeBody b s = .next { s with buf := s.buf.write s.pos b, pos := s.pos + 1, need := s.need - 1 } := by
  rcases storeBody_spec b s with ⟨-, h⟩ | ⟨hcap, -⟩
  · rw [h, if_neg (by omega)]
  · exact absurd hpos hcap.not_gt

/-- The state in which the handlers run: `FRAME_COMPLETE`, reached by storing the last byte (R144, R198). -/
def withLastByte (b : Byte) (s : State) : State :=
  { s with buf := s.buf.write s.pos b, pos := s.pos + 1, need := 0, st := .frameComplete }

/-- The store of R144 when it is the last one. -/
theorem storeBody_of_last (hpos : s.pos < s.cfg.frameCap) (hneed : s.need = 1) :
    storeBody b s = .next (withLastByte b s) := by
  rcases storeBody_spec b s with ⟨-, h⟩ | ⟨hcap, -⟩
  · rw [hneed] at h
    exact h
  · exact absurd hpos hcap.not_gt

theorem exec_byteBody_eq_storeBody (hst : s.st = .readingPayload) (hneed : 1 < s.need) :
    exec (.byteBody b) s = storeBody b s :=
  whenClass_of_eq (classify_of_payload_body hst hneed)

/-- The last byte is stored and the frame completed in one step (R144). -/
theorem exec_byteLast_eq_complete (hst : s.st = .readingPayload) (hpos : s.pos < s.cfg.frameCap)
    (hneed : s.need = 1) : exec (.byteLast b) s = complete (withLastByte b s) := by
  calc exec (.byteLast b) s
    _ = andThen (storeBody b s) complete := whenClass_of_eq (classify_of_payload_last hst hneed)
    _ = complete (withLastByte b s) := by rw [storeBody_of_last hpos hneed, andThen_next]

/-- Every byte below `pos` has been written: the frame in progress is readable (R25). -/
def FrameWritten (s : State) : Prop := ∀ i < s.pos, (s.buf.read i).isSome = true

/-- What R31 says of the payload phase, without the frame's marker and length. -/
theorem Inv.payload (h : Inv s) (hst : s.st = .readingPayload) :
    1 ≤ s.need ∧ 2 ≤ s.pos ∧ s.pos < s.cfg.frameCap ∧ FrameWritten s := by
  have hphase := h.phase
  simp only [PhaseInv, hst] at hphase
  obtain ⟨-, len, -, -, -, hlen, htwo, hle, hsum, hwritten⟩ := hphase
  obtain ⟨-, hmax⟩ := isLength_iff.mp hlen
  obtain ⟨-, -, -, -, -, -, hcap, -⟩ := Config.bounds s.cfg
  exact ⟨by omega, htwo, by omega, hwritten⟩

/-! #### `FRAME_COMPLETE` -/

/-- Storing at `pos` extends the readable frame by one byte. -/
theorem frameWritten_withLastByte (h : FrameWritten s) : FrameWritten (withLastByte b s) := by
  intro i hi
  by_cases hlast : i = s.pos
  · simp [withLastByte, hlast]
  · have hold : i < s.pos := lt_of_le_of_ne (Nat.le_of_lt_succ hi) hlast
    simpa [withLastByte, hlast] using h i hold

theorem FrameWritten.readRange (h : FrameWritten s) {i n : Nat} (hn : i + n ≤ s.pos) :
    ∃ bytes, Machine.readRange s i n = some bytes := by
  refine ⟨_, readRange_of_read (f := fun k => (s.buf.read (i + k)).getD 0) fun k hk => ?_⟩
  have hbelow : i + k < s.pos := by omega
  obtain ⟨v, hv⟩ := Option.isSome_iff_exists.mp (h (i + k) hbelow)
  exact ⟨hbelow, by rw [hv, Option.getD_some]⟩

/-- The check of a written frame of three bytes or more reads written bytes only (R145). -/
theorem FrameWritten.checkFrame (h : FrameWritten s) (hpos : 3 ≤ s.pos) :
    ∃ view ok, Machine.checkFrame s = some (view, ok) := by
  obtain ⟨view, hview⟩ := h.readRange (i := 0) (n := s.pos) (by omega)
  obtain ⟨interior, hinterior⟩ := h.readRange (i := 2) (n := s.pos - 3) (by omega)
  have hbelow : s.pos - 1 < s.pos := by omega
  obtain ⟨received, hreceived⟩ := Option.isSome_iff_exists.mp (h _ hbelow)
  exact ⟨view, verdict s.engine interior received, by
    simp only [Machine.checkFrame, hview, hinterior, readByte, if_pos hbelow, hreceived]⟩

/-- A written frame of three bytes or more is completed, valid or not (R145 to R148). -/
theorem FrameWritten.complete (h : FrameWritten s) (hpos : 3 ≤ s.pos) :
    ∃ view ok, Machine.checkFrame s = some (view, ok) ∧ Machine.complete s = .next { s with
      st := .seekingMarker, pos := 0, need := 0, out := s.out ++ frameEvents s.vh s.ro view ok } := by
  rcases complete_spec s with hdone | ⟨hnone, -⟩
  · exact hdone
  · obtain ⟨view, ok, hsome⟩ := h.checkFrame hpos
    simp [hnone] at hsome

/-- With no frame in progress every byte of the buffer is dead (R25). -/
theorem readByte_of_pos_zero (hpos : s.pos = 0) (i : Nat) : readByte s i = none := by
  rw [readByte, hpos, if_neg (Nat.not_lt_zero i)]

end

/-- Settles O26: the class follows from the phase, and `seek` and `seekNotes` from membership in `MARKERS`. -/
theorem seekingByteEffect : Obligations.SeekingByteEffect := by
  intro s b hst
  refine ⟨fun hb => ⟨?_, ?_⟩, fun hb => ⟨?_, ?_⟩⟩
  · rw [exec_byteMarker_of_mem hst hb, seek_of_mem hb]
  · rw [feedNotes_of_seekingMarker hst, seekNotes_of_mem hb]
  · rw [exec_byteNoise_of_notMem hst hb, seek_of_notMem hb]
  · rw [feedNotes_of_seekingMarker hst, seekNotes_of_notMem hb]

/-- Settles O29: the bounds on entry from R31, then the store of a body byte and of the last byte. -/
theorem payloadByteIsStored : Obligations.PayloadByteIsStored := by
  refine ⟨fun s hinv hst => ?_, fun s b hst hpos => ⟨fun hneed => ⟨?_, ?_⟩, fun hneed => ?_⟩⟩
  · obtain ⟨hneed, -, hcap, -⟩ := hinv.payload hst
    exact ⟨hneed, Nat.le_sub_one_of_lt hcap⟩
  · rw [exec_byteBody_eq_storeBody hst hneed, storeBody_of_more hpos hneed]
  · exact feedNotes_of_payload_body hst hneed
  · exact exec_byteLast_eq_complete hst hpos hneed

/-- Settles O31: the completed frame is written throughout, so its check succeeds and the receiver returns. -/
theorem completedFrameReturnsToSeeking : Obligations.CompletedFrameReturnsToSeeking := by
  intro s b hinv hst hneed
  obtain ⟨-, htwo, hcap, hwritten⟩ := hinv.payload hst
  obtain ⟨view, ok, -, hdone⟩ := (frameWritten_withLastByte (b := b) hwritten).complete (Nat.succ_le_succ htwo)
  exact ⟨_, (exec_byteLast_eq_complete hst hcap hneed).trans hdone, rfl, rfl, rfl, readByte_of_pos_zero rfl⟩

end Sys2Proof.Machine

/-! ### One input byte in a boundary state, and the conditions it notes (60_exceptions.md R190 to R195)

RX.FEED is followed phase by phase: each phase has its own equation, and each is shown to keep the boundary invariant,
so a byte fed in a boundary state always completes in one. The check of a frame is read off its stored bytes. -/

namespace Sys2Proof.Machine

section
variable {s : State} {b : Byte}

/-! #### What RX.FEED does in each phase -/

theorem feedByte_of_seekingMarker (hst : s.st = .seekingMarker) : feedByte b s = seek b s := by
  simp only [feedByte, hst]

theorem feedByte_of_isLength (hst : s.st = .readingLength) (hb : isLength s.cfg b = true) :
    feedByte b s = acceptLen b s := by
  simp only [feedByte, hst, hb, if_true]

theorem feedByte_of_not_isLength (hst : s.st = .readingLength) (hb : ¬ isLength s.cfg b = true) :
    feedByte b s = rejectLen b s := by
  simp only [feedByte, hst, if_neg hb]

theorem feedByte_of_payload (hst : s.st = .readingPayload) (hneed : 1 ≤ s.need) : feedByte b s = receive b s := by
  have hne : s.need ≠ 0 := Nat.one_le_iff_ne_zero.mp hneed
  simp only [feedByte, hst, if_neg hne]

theorem feedByte_of_payload_body (hst : s.st = .readingPayload) (hpos : s.pos < s.cfg.frameCap)
    (hneed : 1 < s.need) :
    feedByte b s = .next { s with buf := s.buf.write s.pos b, pos := s.pos + 1, need := s.need - 1 } := by
  have hmore : s.need - 1 ≠ 0 := Nat.sub_ne_zero_of_lt hneed
  rw [feedByte_of_payload hst hneed.le, receive, storeBody_of_more hpos hneed, andThen_next, if_neg hmore]

theorem feedByte_of_payload_last (hst : s.st = .readingPayload) (hpos : s.pos < s.cfg.frameCap)
    (hneed : s.need = 1) : feedByte b s = complete (withLastByte b s) := by
  rw [feedByte_of_payload hst hneed.ge, receive, storeBody_of_last hpos hneed, andThen_next]
  rfl

/-! #### Every phase keeps the boundary invariant -/

/-- No handler runs at a boundary (R31). -/
theorem Inv.st_ne_frameComplete (h : Inv s) : s.st ≠ .frameComplete := by
  intro hst
  simpa only [PhaseInv, hst] using h.phase

/-- A store inside the buffer keeps the invariant if the sequencing state written with it satisfies R31. -/
theorem Inv.write (h : Inv s) {i : Nat} (hi : i < s.cfg.frameCap) {st : RxState} {pos need : Nat}
    {out : List Event}
    (hphase : PhaseInv { s with buf := s.buf.write i b, st := st, pos := pos, need := need, out := out }) :
    Inv { s with buf := s.buf.write i b, st := st, pos := pos, need := need, out := out } where
  engine := h.engine
  canon := write_wf i b h.canon
  cap := write_bound b hi h.cap
  phase := hphase

theorem Inv.toSeeking (h : Inv s) : Inv (Machine.toSeeking s) where
  engine := h.engine
  canon := h.canon
  cap := h.cap
  phase := ⟨rfl, rfl⟩

theorem seek_keeps_inv (h : Inv s) (hst : s.st = .seekingMarker) : ∃ t, seek b s = .next t ∧ Inv t := by
  rcases seek_spec b s with ⟨hm, hseek⟩ | ⟨-, hseek⟩
  · have hphase := h.phase
    simp only [PhaseInv, hst] at hphase
    obtain ⟨-, -, -, -, -, -, hcap, -⟩ := Config.bounds s.cfg
    exact ⟨_, hseek, h.write (by omega) ⟨rfl, hphase.2, b, by simp, hm⟩⟩
  · exact ⟨s, hseek, h⟩

theorem acceptLen_keeps_inv (h : Inv s) (hst : s.st = .readingLength) (hb : isLength s.cfg b = true) :
    ∃ t, acceptLen b s = .next t ∧ Inv t := by
  have hphase := h.phase
  simp only [PhaseInv, hst] at hphase
  obtain ⟨-, -, m, hread, hm⟩ := hphase
  obtain ⟨hmin, -⟩ := isLength_iff.mp hb
  obtain ⟨-, -, -, -, -, -, hcap, -⟩ := Config.bounds s.cfg
  have hwritten : ∀ i < 2, ((s.buf.write 1 b).read i).isSome = true := by
    intro i hi
    interval_cases i <;> simp [hread]
  exact ⟨_, acceptLen_spec b s, h.write (by omega)
    ⟨m, b, by simp [hread], hm, by simp, hb, le_rfl, Nat.succ_le_succ (Nat.le_of_succ_le hmin),
      Nat.add_comm _ _, hwritten⟩⟩

theorem rejectLen_keeps_inv (h : Inv s) : ∃ t, rejectLen b s = .next t ∧ Inv t := seek_keeps_inv h.toSeeking rfl

theorem payload_body_keeps_inv (h : Inv s) (hst : s.st = .readingPayload) (hneed : 1 < s.need) :
    Inv { s with buf := s.buf.write s.pos b, pos := s.pos + 1, need := s.need - 1 } := by
  have hphase := h.phase
  simp only [PhaseInv, hst] at hphase
  obtain ⟨m, len, hm, hmarker, hl, hlen, htwo, -, hsum, -⟩ := hphase
  obtain ⟨-, -, hpos, hwritten⟩ := h.payload hst
  refine h.write hpos ?_
  have hfirst : 0 ≠ s.pos := by omega
  have hsecond : 1 ≠ s.pos := by omega
  simp only [PhaseInv, hst]
  refine ⟨m, len, by simp [hfirst, hm], hmarker, by simp [hsecond, hl], hlen, by omega, by omega, by omega, ?_⟩
  exact frameWritten_withLastByte hwritten

/-- The byte that completes a frame leaves a boundary state with the receiver seeking again (R148). -/
theorem payload_last_keeps_inv (h : Inv s) (hst : s.st = .readingPayload) (hneed : s.need = 1) :
    ∃ t, feedByte b s = .next t ∧ t.st = .seekingMarker ∧ Inv t := by
  obtain ⟨-, htwo, hpos, hwritten⟩ := h.payload hst
  obtain ⟨view, ok, -, hdone⟩ := (frameWritten_withLastByte (b := b) hwritten).complete (Nat.succ_le_succ htwo)
  exact ⟨_, (feedByte_of_payload_last hst hpos hneed).trans hdone, rfl, h.write hpos ⟨rfl, rfl⟩⟩

/-- No byte stops the receiver at a boundary, and every byte ends at one (R153, R195). -/
theorem feedByte_keeps_inv (h : Inv s) (b : Byte) : ∃ t, feedByte b s = .next t ∧ Inv t := by
  cases hst : s.st with
  | seekingMarker => rw [feedByte_of_seekingMarker hst]; exact seek_keeps_inv h hst
  | readingLength =>
    by_cases hb : isLength s.cfg b = true
    · rw [feedByte_of_isLength hst hb]; exact acceptLen_keeps_inv h hst hb
    · rw [feedByte_of_not_isLength hst hb]; exact rejectLen_keeps_inv h
  | readingPayload =>
    obtain ⟨hneed, -, hpos, -⟩ := h.payload hst
    rcases hneed.eq_or_lt with hlast | hmore
    · obtain ⟨t, hfeed, -, ht⟩ := payload_last_keeps_inv (b := b) h hst hlast.symm
      exact ⟨t, hfeed, ht⟩
    · exact ⟨_, feedByte_of_payload_body hst hpos hmore, payload_body_keeps_inv h hst hmore⟩
  | frameComplete => exact absurd hst h.st_ne_frameComplete

/-! #### Back to `SEEKING_MARKER` -/

/-- Any `need` bytes finish the frame in progress (R195). -/
theorem feedBytes_of_payload {bytes : List Byte} (h : Inv s) (hst : s.st = .readingPayload)
    (hlen : bytes.length = s.need) : ∃ t, feedBytes bytes s = .next t ∧ t.st = .seekingMarker := by
  induction bytes generalizing s with
  | nil =>
    obtain ⟨hneed, -⟩ := h.payload hst
    exact absurd hlen (Nat.ne_of_lt hneed)
  | cons b rest ih =>
    obtain ⟨hneed, -, hpos, -⟩ := h.payload hst
    rw [List.length_cons] at hlen
    rcases hneed.eq_or_lt with hlast | hmore
    · obtain ⟨t, hfeed, ht, -⟩ := payload_last_keeps_inv (b := b) h hst hlast.symm
      have hrest : rest = [] := List.length_eq_zero_iff.mp (by omega)
      exact ⟨t, by rw [hrest, feedBytes, hfeed, andThen_next, feedBytes], ht⟩
    · rw [feedBytes, feedByte_of_payload_body hst hpos hmore, andThen_next]
      exact ih (payload_body_keeps_inv h hst hmore) hst (Nat.eq_sub_of_add_eq hlen)

/-- A whole buffer fed at a boundary (R150). -/
theorem exec_rxFeedn_buffer (hst : s.st ≠ .frameComplete) (bytes : List Byte) :
    exec (.rxFeedn (.buffer bytes) bytes.length) s = feedBytes bytes s := by
  have hrange : dataRange (.buffer bytes) 0 bytes.length = some bytes := by
    rw [dataRange_of_le (by simp [dataSize, dataBytes])]
    simp [dataBytes]
  rw [exec, execRxFeedn, unlessNested_of_ne hst, hrange]

theorem exec_rxReset_of_ne (hst : s.st ≠ .frameComplete) : exec .rxReset s = .next (toSeeking s) :=
  unlessNested_of_ne hst

/-- One byte that is neither a length nor a marker abandons the frame (R143, R195). -/
theorem feedByte_abandons (hst : s.st = .readingLength) (hb : b ∉ s.cfg.markers)
    (hout : b.toNat < 2 ∨ s.cfg.lenMax < b.toNat) :
    feedByte b s = .next { s with pos := 0, need := 0, st := .seekingMarker } := by
  have hlen : ¬ isLength s.cfg b = true := by
    rw [isLength_iff, lenMin]
    omega
  rw [feedByte_of_not_isLength hst hlen]
  rcases rejectLen_spec b s with ⟨hm, -⟩ | ⟨-, h⟩
  · exact absurd (isMarker_iff_mem.mp hm) hb
  · exact h

/-! #### The verdict on a complete frame -/

theorem readRange_succ_eq_some_iff {i n : Nat} {bytes : List Byte} : readRange s i (n + 1) = some bytes ↔
    ∃ v vs, readByte s i = some v ∧ readRange s (i + 1) n = some vs ∧ v :: vs = bytes := by
  cases hv : readByte s i <;> cases hvs : readRange s (i + 1) n <;> simp [readRange, hv, hvs]

/-- A range reads as the list of its bytes, index by index (R59). -/
theorem readRange_eq_some_iff {i n : Nat} {bytes : List Byte} :
    readRange s i n = some bytes ↔ bytes.length = n ∧ ∀ k < n, readByte s (i + k) = bytes[k]? := by
  induction n generalizing i bytes with
  | zero => simp [readRange, eq_comm (a := [])]
  | succ n ih =>
    rw [readRange_succ_eq_some_iff]
    cases bytes with
    | nil => simp
    | cons v vs =>
      simp only [List.cons.injEq, ih, Nat.forall_lt_succ_left, List.length_cons, List.getElem?_cons_succ,
        List.getElem?_cons_zero, Nat.add_zero, Nat.add_assoc, Nat.add_comm 1]
      constructor
      · rintro ⟨_, _, hfirst, ⟨hsize, hrest⟩, rfl, rfl⟩
        exact ⟨congrArg Nat.succ hsize, hfirst, hrest⟩
      · rintro ⟨hsize, hfirst, hrest⟩
        exact ⟨v, vs, hfirst, ⟨Nat.succ.inj hsize, hrest⟩, rfl, rfl⟩

theorem readByte_withLastByte_of_lt {i : Nat} (hi : i < s.pos) :
    readByte (withLastByte b s) i = s.buf.read i := by
  simp [readByte, withLastByte, hi.ne, Nat.lt_succ_of_lt hi]

theorem readByte_withLastByte_pos : readByte (withLastByte b s) s.pos = some b := by
  simp [readByte, withLastByte]

/-- The check of the frame `b` completes: the view is the bytes stored before followed by `b`, and the verdict
compares `b` with the checksum of the interior (R145). -/
theorem checkFrame_withLastByte (h : FrameWritten s) {interior : List Byte} (hlen : interior.length + 2 = s.pos)
    (hread : ∀ k < interior.length, s.buf.read (k + 2) = interior[k]?) :
    ∃ view, checkFrame (withLastByte b s) = some (view, verdict s.engine interior b) ∧ view.length = s.pos + 1 ∧
      (∀ i < s.pos, view[i]? = s.buf.read i) ∧ view[s.pos]? = some b := by
  obtain ⟨view, hview⟩ := (frameWritten_withLastByte (b := b) h).readRange (i := 0) (n := s.pos + 1)
    (Nat.zero_add _).le
  obtain ⟨hsize, hbytes⟩ := readRange_eq_some_iff.mp hview
  have hinterior : readRange (withLastByte b s) 2 (s.pos - 2) = some interior := by
    refine readRange_eq_some_iff.mpr ⟨by omega, fun k hk => ?_⟩
    rw [readByte_withLastByte_of_lt (by omega), Nat.add_comm]
    exact hread k (by omega)
  refine ⟨view, ?_, hsize, fun i hi => ?_, ?_⟩
  · have hN : (withLastByte b s).pos = s.pos + 1 := rfl
    rw [checkFrame, hN, hview, Nat.add_sub_cancel, readByte_withLastByte_pos,
      show s.pos + 1 - 3 = s.pos - 2 from rfl, hinterior]
    rfl
  · rw [← hbytes i (by omega), Nat.zero_add, readByte_withLastByte_of_lt hi]
  · rw [← hbytes s.pos (by omega), Nat.zero_add, readByte_withLastByte_pos]

/-- The verdict of a built engine is the comparison with `CRC8(0x00, interior)` (R145). -/
theorem verdict_eq_false_iff {e : Engine} (h : e.Built) {interior : List Byte} {received : Byte} :
    verdict e interior received = false ↔ received ≠ crc8 0x00 interior := by
  rw [verdict, engineCrc_of_built h, decide_eq_false_iff_not, eq_comm]

theorem complete_of_checkFrame {view : List Byte} {ok : Bool} (h : checkFrame s = some (view, ok)) :
    complete s = .next { s with
      st := .seekingMarker, pos := 0, need := 0, out := s.out ++ frameEvents s.vh s.ro view ok } := by
  simp only [complete, h, finishFrame_eq]

/-- An invalid frame is shown to the raw observer alone (R146, R147). -/
theorem frameEvents_false (vh ro : Option HandlerId) (view : List Byte) :
    frameEvents vh ro view false = (ro.map fun h => Event.rawFrame h view false).toList := by
  cases vh <;> cases ro <;> rfl

/-! #### Which conditions a byte notes -/

theorem completeNotes_of_checkFrame {view : List Byte} {ok : Bool} (h : checkFrame s = some (view, ok)) :
    completeNotes s = if ok then [] else [.checksumMismatch] := by
  rw [completeNotes, h]

/-- The check of a frame notes a mismatch or nothing (R193). -/
theorem completeNotes_eq (s : State) : completeNotes s = [] ∨ completeNotes s = [.checksumMismatch] := by
  rw [completeNotes]
  split
  · split
    · exact .inl rfl
    · exact .inr rfl
  · exact .inl rfl

theorem feedNotes_of_payload_last (hst : s.st = .readingPayload) (hpos : s.pos < s.cfg.frameCap)
    (hneed : s.need = 1) : feedNotes b s = completeNotes (withLastByte b s) := by
  simp only [feedNotes, hst, hneed, if_true, storeBody_of_last hpos hneed]

/-- In the payload phase no condition but a mismatch is noted (R193). -/
theorem feedNotes_of_payload (h : Inv s) (hst : s.st = .readingPayload) :
    feedNotes b s = [] ∨ feedNotes b s = [.checksumMismatch] := by
  obtain ⟨hneed, -, hpos, -⟩ := h.payload hst
  rcases hneed.eq_or_lt with hlast | hmore
  · rw [feedNotes_of_payload_last hst hpos hlast.symm]
    exact completeNotes_eq _
  · exact .inl (feedNotes_of_payload_body hst hmore)

theorem seek_keeps_out (b : Byte) (s : State) : ∃ t, seek b s = .next t ∧ t.out = s.out := by
  rcases seek_spec b s with ⟨-, h⟩ | ⟨-, h⟩
  · exact ⟨_, h, rfl⟩
  · exact ⟨_, h, rfl⟩

/-- Outside the payload phase nothing is emitted (R152). -/
theorem feedByte_keeps_out (h : Inv s) (hst : s.st ≠ .readingPayload) :
    ∃ t, feedByte b s = .next t ∧ t.out = s.out := by
  cases hphase : s.st with
  | seekingMarker => rw [feedByte_of_seekingMarker hphase]; exact seek_keeps_out b s
  | readingLength =>
    by_cases hb : isLength s.cfg b = true
    · exact ⟨_, (feedByte_of_isLength hphase hb).trans (acceptLen_spec b s), rfl⟩
    · rw [feedByte_of_not_isLength hphase hb]; exact seek_keeps_out b (toSeeking s)
  | readingPayload => exact absurd hphase hst
  | frameComplete => exact absurd hphase h.st_ne_frameComplete

end

/-- Settles O32: the check compares the last byte with the checksum of the interior; the two other conditions are noted
outside the payload phase, where nothing is emitted. -/
theorem mismatchIsVisibleToTheObserverAlone : Obligations.MismatchIsVisibleToTheObserverAlone := by
  refine ⟨fun s b interior hinv hst hneed hlen hread => ?_, fun s b hinv hsome hother => ?_⟩
  · obtain ⟨-, -, hpos, hwritten⟩ := hinv.payload hst
    obtain ⟨view, hcheck, hview⟩ := checkFrame_withLastByte (b := b) hwritten hlen hread
    have hverdict := verdict_eq_false_iff hinv.engine (interior := interior) (received := b)
    refine ⟨?_, fun hb => ?_⟩
    · rw [feedNotes_of_payload_last hst hpos hneed, completeNotes_of_checkFrame hcheck, ← hverdict]
      cases verdict s.engine interior b <;> decide
    · rw [hverdict.mpr hb] at hcheck
      have hfeed := (feedByte_of_payload_last hst hpos hneed).trans (complete_of_checkFrame hcheck)
      rw [frameEvents_false] at hfeed
      obtain ⟨hsize, hbefore, hlast⟩ := hview
      exact ⟨_, view, hfeed, rfl, rfl, hsize, hbefore, hlast, rfl⟩
  · refine feedByte_keeps_out hinv fun hst => ?_
    rcases feedNotes_of_payload (b := b) hinv hst with h | h
    · exact hsome h
    · exact hother h

/-- Settles O45: the invariant is kept by every byte, so the payload phase can be run to the frame's end; 0x00 is the
byte that is neither a marker nor a length under any parameters. -/
theorem resynchronizationIsAlwaysPossible : Obligations.ResynchronizationIsAlwaysPossible := by
  intro s hinv
  have hidle := hinv.st_ne_frameComplete
  refine ⟨fun bytes hst hlen => ?_, fun b hst hb hout => ⟨_, feedByte_abandons hst hb hout, rfl⟩,
    ⟨_, exec_rxReset_of_ne hidle, rfl⟩, feedByte_keeps_inv hinv, 0x00, ?_, .inl (by decide)⟩
  · rw [exec_rxFeedn_buffer hidle]
    exact feedBytes_of_payload hinv hst hlen
  · obtain ⟨-, hzero, -⟩ := Config.bounds s.cfg
    exact isMarker_eq_false_iff.mp hzero

end Sys2Proof.Machine

/-! ### The two ports of the decoder (30_encoding.md R84, R87 to R90)

A command code names its operation and is read back from the operation's encoding. A byte's class is a condition on
the state and the byte, one for each class; the instruction of a class runs RX.FEED of its byte behind that
condition, so what is proved of RX.FEED holds of the six classes. -/

namespace Sys2Proof.Machine

/-! #### The command port -/

/-- The seven operations a transaction can decode to, each with its code and its operands (R87, R88). -/
theorem decodeCommand_cases {p : Ports} {i : Instr} (h : decodeCommand p = .ok i) :
    (p.op = 0x10 ∧ i = .crcCalc p.seed p.data p.length) ∨
    (p.op = 0x11 ∧ i = .crcCalco p.offset p.seed p.data p.length) ∨ (p.op = 0x20 ∧ i = .rxFeed p.b) ∨
    (p.op = 0x21 ∧ i = .rxFeedn p.data p.n) ∨ (p.op = 0x22 ∧ i = .rxReset) ∨ (p.op = 0x23 ∧ i = .rxSetvh p.h) ∨
    (p.op = 0x24 ∧ i = .rxSetro p.h) := by
  simp only [decodeCommand] at h
  split_ifs at h <;> cases h <;> simp [*]

/-- The transaction laid out for a decoded operation has the code it was decoded from, and decodes to it. -/
theorem encode_of_decodeCommand {p : Ports} {i : Instr} (h : decodeCommand p = .ok i) :
    ∃ q, encode i = .command q ∧ q.op = p.op ∧ decodeCommand q = .ok i := by
  rcases decodeCommand_cases h with ⟨hop, rfl⟩ | ⟨hop, rfl⟩ | ⟨hop, rfl⟩ | ⟨hop, rfl⟩ | ⟨hop, rfl⟩ | ⟨hop, rfl⟩ |
    ⟨hop, rfl⟩ <;> exact ⟨_, rfl, hop.symm, rfl⟩

theorem decodeCommand_of_reserved {p : Ports}
    (h : p.op ∉ [(0x10 : Byte), 0x11, 0x20, 0x21, 0x22, 0x23, 0x24]) :
    decodeCommand p = .error (.reservedCommand p.op) := by
  simp only [List.mem_cons, List.not_mem_nil, or_false, not_or] at h
  obtain ⟨h10, h11, h20, h21, h22, h23, h24⟩ := h
  simp only [decodeCommand, if_neg h10, if_neg h11, if_neg h20, if_neg h21, if_neg h22, if_neg h23, if_neg h24]

/-! #### The byte port -/

section
variable {ctx : DecodeCtx} {b : Byte} {c d : ByteClass}

@[simp] theorem encode_classInstr : encode (classInstr b c) = .stream b := by cases c <;> rfl

theorem classInstr_injective (b : Byte) : Function.Injective (classInstr b) := by
  intro c d h
  cases c <;> cases d <;> cases h <;> rfl

/-- The condition R84 puts on the state and the byte for each class. -/
def InClass (ctx : DecodeCtx) (b : Byte) : ByteClass → Prop
  | .marker => ctx.st = .seekingMarker ∧ b ∈ ctx.cfg.markers
  | .noise => ctx.st = .seekingMarker ∧ b ∉ ctx.cfg.markers
  | .len => ctx.st = .readingLength ∧ 2 ≤ b.toNat ∧ b.toNat ≤ ctx.cfg.lenMax
  | .badLen => ctx.st = .readingLength ∧ (b.toNat < 2 ∨ ctx.cfg.lenMax < b.toNat)
  | .body => ctx.st = .readingPayload ∧ 1 < ctx.need
  | .last => ctx.st = .readingPayload ∧ ctx.need = 1

theorem not_isLength_iff {c : Config} {b : Byte} :
    ¬ isLength c b = true ↔ b.toNat < 2 ∨ c.lenMax < b.toNat := by
  rw [isLength_iff, lenMin]
  omega

theorem classify_eq_ok_iff : classify ctx b = .ok c ↔ InClass ctx b c := by
  obtain ⟨cfg, st, need⟩ := ctx
  cases st with
  | seekingMarker =>
    by_cases hm : b ∈ cfg.markers <;> cases c <;> simp [classify, InClass, isMarker_iff_mem, hm]
  | readingLength =>
    by_cases hl : isLength cfg b = true
    · have hbounds : 2 ≤ b.toNat ∧ b.toNat ≤ cfg.lenMax := isLength_iff.mp hl
      cases c <;> simp [classify, InClass, hl] <;> omega
    · have hbounds := not_isLength_iff.mp hl
      cases c <;> simp [classify, InClass, hl] <;> omega
  | readingPayload =>
    match need with
    | 0 | 1 | _ + 2 => cases c <;> simp [classify, InClass]
  | frameComplete => cases c <;> simp [classify, InClass]

/-- The byte port decodes a byte to the instruction of a class exactly when the byte is of that class. -/
theorem decode_stream_eq_ok_iff {i : Instr} :
    decode ctx (.stream b) = .ok i ↔ ∃ c, classify ctx b = .ok c ∧ classInstr b c = i := by
  simp only [decode, decodeStream]
  cases classify ctx b <;> simp

theorem decode_stream_eq_classInstr_iff :
    decode ctx (.stream b) = .ok (classInstr b c) ↔ InClass ctx b c := by
  simp [decode_stream_eq_ok_iff, (classInstr_injective b).eq_iff, classify_eq_ok_iff]

theorem decode_stream_of_error {e : DecodeError} (h : classify ctx b = .error e) :
    decode ctx (.stream b) = .error e := by
  simp only [decode, decodeStream, h]

theorem classInstr_wf (h : InClass ctx b c) : (classInstr b c).wf ctx.cfg = true := by
  cases c with
  | marker => exact isMarker_iff_mem.mpr h.2
  | noise => simp [classInstr, Instr.wf, isMarker_eq_false_iff.mpr h.2]
  | len => exact isLength_iff.mpr h.2
  | badLen => simp [classInstr, Instr.wf, not_isLength_iff.mpr h.2]
  | body => rfl
  | last => rfl

end

/-- Settles O1: a command code is read off the encoding of its operation, and the encoding of a class instruction is
its byte. -/
theorem decodeAndEncodeAgree : Obligations.DecodeAndEncodeAgree := by
  refine ⟨fun ctx seed b offset length n data h i hi => ?_, fun ctx sig i hi => ?_, fun ctx p q i hp hq => ?_,
    fun ctx b c i hb hc => ?_⟩
  · simp only [List.mem_cons, List.not_mem_nil, or_false] at hi
    rcases hi with rfl | rfl | rfl | rfl | rfl | rfl | rfl <;> rfl
  · cases sig with
    | command p =>
      obtain ⟨q, hencode, -, hdecode⟩ := encode_of_decodeCommand hi
      rwa [hencode]
    | stream b =>
      obtain ⟨c, -, rfl⟩ := decode_stream_eq_ok_iff.mp hi
      rwa [encode_classInstr]
  · obtain ⟨p', hp', hop, -⟩ := encode_of_decodeCommand hp
    obtain ⟨q', hq', hoq, -⟩ := encode_of_decodeCommand hq
    obtain rfl : p' = q' := by simpa [hp'] using hq'
    exact hop.symm.trans hoq
  · obtain ⟨_, -, rfl⟩ := decode_stream_eq_ok_iff.mp hb
    obtain ⟨_, -, hsame⟩ := decode_stream_eq_ok_iff.mp hc
    simpa [eq_comm] using congrArg encode hsame

/-- Settles O2: one class condition after another. -/
theorem streamDecodesToTheClassOfTheState : Obligations.StreamDecodesToTheClassOfTheState := fun _ _ =>
  ⟨decode_stream_eq_classInstr_iff (c := .marker), decode_stream_eq_classInstr_iff (c := .noise),
    decode_stream_eq_classInstr_iff (c := .len), decode_stream_eq_classInstr_iff (c := .badLen),
    decode_stream_eq_classInstr_iff (c := .body), decode_stream_eq_classInstr_iff (c := .last)⟩

/-- Settles O5, by running the decoder on the eight words. -/
theorem tableWordsDecode : Obligations.TableWordsDecode := by
  unfold Obligations.TableWordsDecode
  decide

/-! #### A class instruction is RX.FEED of its byte -/

section
variable {s : State} {b : Byte} {c : ByteClass}

/-- Every byte has a class at a boundary (R84). -/
theorem Inv.exists_class (h : Inv s) (b : Byte) : ∃ c, classify (decodeCtx s) b = .ok c := by
  cases hst : s.st with
  | seekingMarker => exact ⟨_, classify_of_seekingMarker hst⟩
  | readingLength => exact ⟨_, by rw [classify, decodeCtx_st, hst]⟩
  | readingPayload =>
    obtain ⟨hneed, -⟩ := h.payload hst
    rcases hneed.eq_or_lt with hlast | hmore
    · exact ⟨.last, classify_of_payload_last hst hlast.symm⟩
    · exact ⟨.body, classify_of_payload_body hst hmore⟩
  | frameComplete => exact absurd hst h.st_ne_frameComplete

theorem whenClass_congr {o o' : Result} (h : classify (decodeCtx s) b = .ok c → o = o') :
    whenClass c b s o = whenClass c b s o' := by
  by_cases hc : classify (decodeCtx s) b = .ok c
  · rw [h hc]
  · unfold whenClass
    split
    · rename_i d hd
      have hne : d ≠ c := fun hdc => hc (hdc ▸ hd)
      simp only [if_neg hne]
    · rfl
    · rfl

theorem receive_of_more (hneed : 1 < s.need) : receive b s = storeBody b s := by
  rcases storeBody_spec b s with ⟨-, h⟩ | ⟨-, h⟩
  · have hmore : s.need - 1 ≠ 0 := Nat.sub_ne_zero_of_lt hneed
    rw [receive, h, andThen_next, if_neg hmore]
  · rw [receive, h, andThen_fault]

theorem receive_of_last (hneed : s.need = 1) : receive b s = andThen (storeBody b s) complete := by
  rcases storeBody_spec b s with ⟨-, h⟩ | ⟨-, h⟩
  · have hdone : s.need - 1 = 0 := Nat.sub_eq_zero_of_le hneed.le
    rw [receive, h, andThen_next, if_pos hdone, andThen_next]
  · rw [receive, h, andThen_fault, andThen_fault]

/-- A class instruction is RX.FEED of its byte behind the class's condition. -/
theorem exec_classInstr (b : Byte) (c : ByteClass) (s : State) :
    exec (classInstr b c) s = whenClass c b s (feedByte b s) := by
  cases c with
  | marker | noise =>
    exact whenClass_congr fun h => (feedByte_of_seekingMarker (classify_eq_ok_iff.mp h).1).symm
  | len =>
    refine whenClass_congr fun h => ?_
    obtain ⟨hst, hb⟩ := classify_eq_ok_iff.mp h
    exact (feedByte_of_isLength hst (isLength_iff.mpr hb)).symm
  | badLen =>
    refine whenClass_congr fun h => ?_
    obtain ⟨hst, hb⟩ := classify_eq_ok_iff.mp h
    exact (feedByte_of_not_isLength hst (not_isLength_iff.mpr hb)).symm
  | body =>
    refine whenClass_congr fun h => ?_
    obtain ⟨hst, hneed⟩ := classify_eq_ok_iff.mp h
    exact ((feedByte_of_payload hst hneed.le).trans (receive_of_more hneed)).symm
  | last =>
    refine whenClass_congr fun h => ?_
    obtain ⟨hst, hneed⟩ := classify_eq_ok_iff.mp h
    exact ((feedByte_of_payload hst hneed.ge).trans (receive_of_last hneed)).symm

theorem exec_classInstr_of_classify (h : classify (decodeCtx s) b = .ok c) :
    exec (classInstr b c) s = feedByte b s := by
  rw [exec_classInstr, whenClass_of_eq h]

/-- A byte that is of no class is refused by RX.FEED for the decoder's reason (R84, R175). -/
theorem feedByte_of_classify_error {e : DecodeError} (h : classify (decodeCtx s) b = .error e) :
    feedByte b s = .refused (decodeRefusal e) := by
  simp only [classify, decodeCtx_st, decodeCtx_need] at h
  split at h
  · cases h
  · cases h
  · rename_i hst
    split at h <;> cases h
    rename_i hneed
    simp only [feedByte, hst, hneed, if_true, decodeRefusal]
  · rename_i hst
    cases h
    simp only [feedByte, hst, decodeRefusal]

end

/-- Settles O3: the class exists at a boundary, its instruction meets its own condition, and decoding tells classes
apart. -/
theorem everyByteHasExactlyOneClass : Obligations.EveryByteHasExactlyOneClass := by
  intro s b hinv
  obtain ⟨c, hc⟩ := hinv.exists_class b
  have hdecode : decode (decodeCtx s) (.stream b) = .ok (classInstr b c) :=
    decode_stream_eq_ok_iff.mpr ⟨c, hc, rfl⟩
  refine ⟨c, hc, hdecode, classInstr_wf (classify_eq_ok_iff.mp hc), fun d hd => ?_⟩
  rw [hdecode] at hd
  exact classInstr_injective b (Except.ok.inj hd).symm

/-- Settles O33: the guard of a class instruction stands before all else. -/
theorem byteOutsideItsClassIsRefused : Obligations.ByteOutsideItsClassIsRefused := by
  intro s b c d hd hne
  simp only [exec_classInstr, whenClass, hd, if_neg hne]

/-! #### The step -/

theorem step_of_idle {s : State} (h : s.inbox = []) : step s = .next s := by
  simp only [step, fetch, h]

/-- A signal that decodes is run on what is left of the host's list (R90). -/
theorem step_of_decode_ok {s : State} {sig : Signal} {rest : List Signal} {i : Instr} (h : s.inbox = sig :: rest)
    (hi : decode (decodeCtx s) sig = .ok i) : step s = exec i { s with inbox := rest } := by
  simp only [step, fetch, h, hi]

theorem step_of_decode_error {s : State} {sig : Signal} {rest : List Signal} {e : DecodeError}
    (h : s.inbox = sig :: rest) (he : decode (decodeCtx s) sig = .error e) :
    step s = .refused (decodeRefusal e) := by
  simp only [step, fetch, h, he]

/-- A byte on the byte port is fed, whatever becomes of it. -/
theorem step_of_stream {s : State} {b : Byte} {rest : List Signal} (h : s.inbox = .stream b :: rest) :
    step s = feedByte b { s with inbox := rest } := by
  cases hc : classify (decodeCtx s) b with
  | ok c =>
    rw [step_of_decode_ok h (decode_stream_eq_ok_iff.mpr ⟨c, hc, rfl⟩)]
    exact exec_classInstr_of_classify hc
  | error e =>
    rw [step_of_decode_error h (decode_stream_of_error hc)]
    exact (feedByte_of_classify_error (s := { s with inbox := rest }) hc).symm

/-- Settles O8: both steps are RX.FEED of the byte. -/
theorem streamByteIsRxFeed : Obligations.StreamByteIsRxFeed := by
  intro s b rest
  rw [step_of_stream rfl, step_of_decode_ok (i := .rxFeed b) rfl rfl]
  rfl

/-- Settles O4: such a code decodes to nothing. -/
theorem reservedCommandHasNoStep : Obligations.ReservedCommandHasNoStep := fun _ _ _ h hop =>
  step_of_decode_error h (decodeCommand_of_reserved hop)

/-- Settles O6. -/
theorem stepRunsTheDecodedInstruction : Obligations.StepRunsTheDecodedInstruction := fun _ _ _ h =>
  ⟨fun _ => step_of_decode_ok h, fun _ => step_of_decode_error h⟩

/-- Settles O7. -/
theorem idleStepHoldsTheState : Obligations.IdleStepHoldsTheState := fun _ => step_of_idle

end Sys2Proof.Machine

/-! ### What a byte fed to the receiver can do, and the instructions built from it (41_frame_receiver.md R140 to R150)

`FeedStep` lists every way RX.FEED can answer a next state and `ExecStep` every way an instruction can; what an
instruction changes, and what it keeps, is read off these lists. -/

namespace Sys2Proof.Machine

/-- The next states of RX.FEED `b` in `s`: one case for each rule of R141 to R148, with the condition it runs under. -/
inductive FeedStep (b : Byte) (s : State) : State → Prop
  | noise (hst : s.st = .seekingMarker) (hb : b ∉ s.cfg.markers) : FeedStep b s s
  | marker (hst : s.st = .seekingMarker) (hb : b ∈ s.cfg.markers) :
    FeedStep b s { s with buf := s.buf.write 0 b, pos := 1, st := .readingLength }
  | len (hst : s.st = .readingLength) (hb : isLength s.cfg b = true) :
    FeedStep b s { s with buf := s.buf.write 1 b, pos := 2, need := b.toNat, st := .readingPayload }
  | badLenMarker (hst : s.st = .readingLength) (hb : ¬ isLength s.cfg b = true) (hm : b ∈ s.cfg.markers) :
    FeedStep b s { s with buf := s.buf.write 0 b, pos := 1, need := 0, st := .readingLength }
  | badLenNoise (hst : s.st = .readingLength) (hb : ¬ isLength s.cfg b = true) (hm : b ∉ s.cfg.markers) :
    FeedStep b s { s with pos := 0, need := 0, st := .seekingMarker }
  | body (hst : s.st = .readingPayload) (hneed : 1 < s.need) (hpos : s.pos < s.cfg.frameCap) :
    FeedStep b s { s with buf := s.buf.write s.pos b, pos := s.pos + 1, need := s.need - 1 }
  | last (hst : s.st = .readingPayload) (hneed : s.need = 1) (hpos : s.pos < s.cfg.frameCap) (view : List Byte)
    (ok : Bool) (hcheck : checkFrame (withLastByte b s) = some (view, ok)) :
    FeedStep b s { s with
      buf := s.buf.write s.pos b, st := .seekingMarker, pos := 0, need := 0,
      out := s.out ++ frameEvents s.vh s.ro view ok }

section
variable {s t u : State} {b : Byte}

theorem rejectLen_of_mem (hb : b ∈ s.cfg.markers) :
    rejectLen b s = .next { s with buf := s.buf.write 0 b, pos := 1, need := 0, st := .readingLength } :=
  seek_of_mem (s := toSeeking s) hb

theorem rejectLen_of_notMem (hb : b ∉ s.cfg.markers) :
    rejectLen b s = .next { s with pos := 0, need := 0, st := .seekingMarker } :=
  seek_of_notMem (s := toSeeking s) hb

theorem FeedStep.feedByte_eq (h : FeedStep b s t) : feedByte b s = .next t := by
  cases h with
  | noise hst hb => rw [feedByte_of_seekingMarker hst, seek_of_notMem hb]
  | marker hst hb => rw [feedByte_of_seekingMarker hst, seek_of_mem hb]
  | len hst hb => rw [feedByte_of_isLength hst hb, acceptLen_spec]
  | badLenMarker hst hb hm => rw [feedByte_of_not_isLength hst hb, rejectLen_of_mem hm]
  | badLenNoise hst hb hm => rw [feedByte_of_not_isLength hst hb, rejectLen_of_notMem hm]
  | body hst hneed hpos => exact feedByte_of_payload_body hst hpos hneed
  | last hst hneed hpos view ok hcheck =>
    exact (feedByte_of_payload_last hst hpos hneed).trans (complete_of_checkFrame hcheck)

theorem storeBody_eq_next (h : storeBody b s = .next t) : s.pos < s.cfg.frameCap := by
  rcases storeBody_spec b s with ⟨hpos, -⟩ | ⟨-, hstop⟩
  · exact hpos
  · cases hstop.symm.trans h

theorem complete_eq_next (h : complete s = .next t) : ∃ view ok, checkFrame s = some (view, ok) := by
  rcases complete_spec s with ⟨view, ok, hcheck, -⟩ | ⟨-, hstop⟩
  · exact ⟨view, ok, hcheck⟩
  · cases hstop.symm.trans h

/-- RX.FEED answers a next state exactly by one of the rules. -/
theorem feedByte_eq_next_iff : feedByte b s = .next t ↔ FeedStep b s t := by
  refine ⟨fun h => ?_, FeedStep.feedByte_eq⟩
  suffices hex : ∃ t', FeedStep b s t' by
    obtain ⟨t', ht'⟩ := hex
    rw [ht'.feedByte_eq] at h
    exact Host.Outcome.next.inj h ▸ ht'
  cases hst : s.st with
  | seekingMarker =>
    by_cases hb : b ∈ s.cfg.markers
    · exact ⟨_, .marker hst hb⟩
    · exact ⟨_, .noise hst hb⟩
  | readingLength =>
    by_cases hb : isLength s.cfg b = true
    · exact ⟨_, .len hst hb⟩
    · by_cases hm : b ∈ s.cfg.markers
      · exact ⟨_, .badLenMarker hst hb hm⟩
      · exact ⟨_, .badLenNoise hst hb hm⟩
  | readingPayload =>
    rcases Nat.lt_trichotomy s.need 1 with hneed | hneed | hneed
    · simp [feedByte, hst, Nat.lt_one_iff.mp hneed] at h
    · rw [feedByte_of_payload hst hneed.ge, receive_of_last hneed] at h
      obtain ⟨u, hu, hdone⟩ := andThen_eq_next.mp h
      have hpos := storeBody_eq_next hu
      rw [storeBody_of_last hpos hneed] at hu
      obtain rfl := Host.Outcome.next.inj hu
      obtain ⟨view, ok, hcheck⟩ := complete_eq_next hdone
      exact ⟨_, .last hst hneed hpos view ok hcheck⟩
    · rw [feedByte_of_payload hst hneed.le, receive_of_more hneed] at h
      exact ⟨_, .body hst hneed (storeBody_eq_next h)⟩
  | frameComplete => simp [feedByte, hst] at h

theorem feedBytes_cons_eq_next_iff {rest : List Byte} :
    feedBytes (b :: rest) s = .next t ↔ ∃ u, FeedStep b s u ∧ feedBytes rest u = .next t := by
  simp only [feedBytes, andThen_eq_next, feedByte_eq_next_iff]

/-- A batch of bytes in a boundary state completes in one (R153). -/
theorem Inv.feedBytes (h : Inv s) (bytes : List Byte) : ∃ t, Machine.feedBytes bytes s = .next t ∧ Inv t := by
  induction bytes generalizing s with
  | nil => exact ⟨s, rfl, h⟩
  | cons b rest ih =>
    obtain ⟨u, hfeed, hu⟩ := feedByte_keeps_inv h b
    rw [Machine.feedBytes, hfeed, andThen_next]
    exact ih hu

/-! #### The frame of a feed -/

/-- The events of a list of completed frames, each with its verdict, in order (R151). -/
def batchEvents (vh ro : Option HandlerId) (frames : List (List Byte × Bool)) : List Event :=
  frames.flatMap fun f => frameEvents vh ro f.1 f.2

@[simp] theorem batchEvents_nil (vh ro : Option HandlerId) : batchEvents vh ro [] = [] := rfl

@[simp] theorem batchEvents_singleton (vh ro : Option HandlerId) (view : List Byte) (ok : Bool) :
    batchEvents vh ro [(view, ok)] = frameEvents vh ro view ok := List.append_nil _

theorem batchEvents_append (vh ro : Option HandlerId) (fs gs : List (List Byte × Bool)) :
    batchEvents vh ro (fs ++ gs) = batchEvents vh ro fs ++ batchEvents vh ro gs := List.flatMap_append

/-- An event whose slot is empty is not raised (R197). -/
@[simp] theorem batchEvents_none (frames : List (List Byte × Bool)) : batchEvents none none frames = [] := by
  simp [batchEvents, frameEvents]

theorem frameEvents_length_le (vh ro : Option HandlerId) (view : List Byte) (ok : Bool) :
    (frameEvents vh ro view ok).length ≤ 2 := by
  cases vh <;> cases ro <;> cases ok <;> simp [frameEvents]

/-- What no feed changes, and that it emits the events of completed frames alone. -/
structure FeedFrame (s t : State) : Prop where
  cfg     : t.cfg = s.cfg
  engine  : t.engine = s.engine
  vh      : t.vh = s.vh
  ro      : t.ro = s.ro
  results : t.results = s.results
  inbox   : t.inbox = s.inbox
  out     : ∃ frames, t.out = s.out ++ batchEvents s.vh s.ro frames

theorem FeedFrame.refl (s : State) : FeedFrame s s := ⟨rfl, rfl, rfl, rfl, rfl, rfl, [], by simp⟩

theorem FeedFrame.trans (hsu : FeedFrame s u) (hut : FeedFrame u t) : FeedFrame s t where
  cfg := hut.cfg.trans hsu.cfg
  engine := hut.engine.trans hsu.engine
  vh := hut.vh.trans hsu.vh
  ro := hut.ro.trans hsu.ro
  results := hut.results.trans hsu.results
  inbox := hut.inbox.trans hsu.inbox
  out := by
    obtain ⟨first, hfirst⟩ := hsu.out
    obtain ⟨later, hlater⟩ := hut.out
    exact ⟨first ++ later, by rw [hlater, hfirst, hsu.vh, hsu.ro, batchEvents_append, List.append_assoc]⟩

/-- Only the byte that completes a frame emits anything (R197). -/
theorem FeedStep.out_eq (h : FeedStep b s t) (hother : s.st ≠ .readingPayload ∨ s.need ≠ 1) : t.out = s.out := by
  cases h with
  | last hst hneed _ _ _ _ => exact absurd hneed (hother.resolve_left (not_not_intro hst))
  | _ => rfl

theorem FeedStep.frame (h : FeedStep b s t) : FeedFrame s t := by
  cases h with
  | last _ _ _ view ok _ => exact ⟨rfl, rfl, rfl, rfl, rfl, rfl, [(view, ok)], by simp⟩
  | _ => exact ⟨rfl, rfl, rfl, rfl, rfl, rfl, [], by simp⟩

theorem feedBytes_frame {bytes : List Byte} (h : feedBytes bytes s = .next t) : FeedFrame s t := by
  induction bytes generalizing s with
  | nil => exact Host.Outcome.next.inj h ▸ FeedFrame.refl s
  | cons b rest ih =>
    obtain ⟨u, hstep, hrest⟩ := feedBytes_cons_eq_next_iff.mp h
    exact hstep.frame.trans (ih hrest)

/-! #### What a feed stores -/

/-- A feed stores its byte at the index of its class, inside the buffer, or nothing at all (R141 to R144). -/
theorem FeedStep.stores (h : FeedStep b s t) :
    (storeIndex b s = none ∧ t.buf = s.buf) ∨
    ∃ i, storeIndex b s = some i ∧ i < s.cfg.frameCap ∧ t.buf = s.buf.write i b := by
  obtain ⟨-, -, -, -, hmin, -, hcap, -⟩ := Config.bounds s.cfg
  cases h with
  | noise hst hb =>
    have hc : classify (decodeCtx s) b = .ok .noise := classify_eq_ok_iff.mpr ⟨hst, hb⟩
    exact .inl ⟨by rw [storeIndex, hc], rfl⟩
  | marker hst hb =>
    have hc : classify (decodeCtx s) b = .ok .marker := classify_eq_ok_iff.mpr ⟨hst, hb⟩
    exact .inr ⟨0, by rw [storeIndex, hc], by omega, rfl⟩
  | len hst hb =>
    have hc : classify (decodeCtx s) b = .ok .len := classify_eq_ok_iff.mpr ⟨hst, isLength_iff.mp hb⟩
    exact .inr ⟨1, by rw [storeIndex, hc], by omega, rfl⟩
  | badLenMarker hst hb hm =>
    have hc : classify (decodeCtx s) b = .ok .badLen := classify_eq_ok_iff.mpr ⟨hst, not_isLength_iff.mp hb⟩
    exact .inr ⟨0, by simp only [storeIndex, hc, isMarker_iff_mem.mpr hm, if_true], by omega, rfl⟩
  | badLenNoise hst hb hm =>
    have hc : classify (decodeCtx s) b = .ok .badLen := classify_eq_ok_iff.mpr ⟨hst, not_isLength_iff.mp hb⟩
    exact .inl ⟨by simp [storeIndex, hc, isMarker_eq_false_iff.mpr hm], rfl⟩
  | body hst hneed hpos => exact .inr ⟨s.pos, by rw [storeIndex, classify_of_payload_body hst hneed], hpos, rfl⟩
  | last hst hneed hpos _ _ _ =>
    exact .inr ⟨s.pos, by rw [storeIndex, classify_of_payload_last hst hneed], hpos, rfl⟩

theorem FeedStep.read_of_ne (h : FeedStep b s t) {a : Nat} (ha : storeIndex b s ≠ some a) :
    t.buf.read a = s.buf.read a := by
  rcases h.stores with ⟨-, hbuf⟩ | ⟨i, hi, -, hbuf⟩
  · rw [hbuf]
  · have hne : a ≠ i := fun hai => ha (hai ▸ hi)
    rw [hbuf, read_write, if_neg hne]

theorem FeedStep.read_of_eq (h : FeedStep b s t) {a : Nat} (ha : storeIndex b s = some a) :
    t.buf.read a = some b := by
  rcases h.stores with ⟨hnone, -⟩ | ⟨i, hi, -, hbuf⟩
  · cases hnone.symm.trans ha
  · obtain rfl := Option.some.inj (hi.symm.trans ha)
    rw [hbuf, read_write, if_pos rfl]

theorem FeedStep.storeIndex_lt (h : FeedStep b s t) {a : Nat} (ha : storeIndex b s = some a) :
    a < s.cfg.frameCap := by
  rcases h.stores with ⟨hnone, -⟩ | ⟨i, hi, hlt, -⟩
  · cases hnone.symm.trans ha
  · exact Option.some.inj (hi.symm.trans ha) ▸ hlt

theorem feedBytes_read_of_notMem {bytes : List Byte} (h : feedBytes bytes s = .next t) {a : Nat}
    (ha : a ∉ storeIndices bytes s) : t.buf.read a = s.buf.read a := by
  induction bytes generalizing s with
  | nil => rw [Host.Outcome.next.inj h]
  | cons b rest ih =>
    obtain ⟨u, hstep, hrest⟩ := feedBytes_cons_eq_next_iff.mp h
    simp only [storeIndices, hstep.feedByte_eq, List.mem_append, Option.mem_toList, not_or] at ha
    obtain ⟨hfirst, hlater⟩ := ha
    exact (ih hrest hlater).trans (hstep.read_of_ne hfirst)

end

/-! #### Every instruction -/

/-- The next states of an instruction: a byte returned to the host, a receiver control operation outside a handler,
a feed, or a byte class on a byte of its class. -/
inductive ExecStep (s : State) : Instr → State → Prop
  | crcCalc (seed : Byte) (data : Data) (length : Nat) (r : Byte) :
    ExecStep s (.crcCalc seed data length) { s with results := s.results ++ [r] }
  | crcCalco (offset : Nat) (seed : Byte) (data : Data) (length : Nat) (r : Byte) :
    ExecStep s (.crcCalco offset seed data length) { s with results := s.results ++ [r] }
  | rxReset (hst : s.st ≠ .frameComplete) : ExecStep s .rxReset (toSeeking s)
  | rxSetvh (hst : s.st ≠ .frameComplete) (h : HandlerId) : ExecStep s (.rxSetvh h) { s with vh := some h }
  | rxSetro (hst : s.st ≠ .frameComplete) (h : HandlerId) : ExecStep s (.rxSetro h) { s with ro := some h }
  | rxFeed {t : State} (b : Byte) (hstep : FeedStep b s t) : ExecStep s (.rxFeed b) t
  | rxFeedn {t : State} (hst : s.st ≠ .frameComplete) (data : Data) (n : Nat) (hn : n ≤ dataSize data)
    (hfeed : feedBytes ((dataBytes data).take n) s = .next t) : ExecStep s (.rxFeedn data n) t
  | byteClass {t : State} (b : Byte) (c : ByteClass) (hc : classify (decodeCtx s) b = .ok c)
    (hstep : FeedStep b s t) : ExecStep s (classInstr b c) t

section
variable {s t : State} {i : Instr}

theorem unlessNested_eq_next {o : Result} (h : unlessNested s o = .next t) :
    s.st ≠ .frameComplete ∧ o = .next t := by
  by_cases hst : s.st = .frameComplete
  · simp [unlessNested, hst] at h
  · exact ⟨hst, by rwa [unlessNested_of_ne hst] at h⟩

theorem calculate_eq_next {offset length : Nat} {seed : Byte} {data : Data}
    (h : calculate offset seed data length s = .next t) : ∃ r, t = { s with results := s.results ++ [r] } := by
  rcases calculate_spec offset seed data length s with ⟨-, hnext⟩ | ⟨-, hstop⟩
  · exact ⟨_, Host.Outcome.next.inj (h.symm.trans hnext)⟩
  · cases hstop.symm.trans h

theorem exec_rxFeedn_of_le (hst : s.st ≠ .frameComplete) {data : Data} {n : Nat} (hn : n ≤ dataSize data) :
    exec (.rxFeedn data n) s = feedBytes ((dataBytes data).take n) s := by
  rw [exec, execRxFeedn, unlessNested_of_ne hst, dataRange_of_le (by omega), List.drop_zero]

theorem exec_rxFeedn_of_lt (hst : s.st ≠ .frameComplete) {data : Data} {n : Nat} (hn : dataSize data < n) :
    exec (.rxFeedn data n) s = .refused .rangeOutsideData := by
  rw [exec, execRxFeedn, unlessNested_of_ne hst, dataRange_of_lt (by omega)]

theorem exec_rxFeedn_eq_next {data : Data} {n : Nat} (h : exec (.rxFeedn data n) s = .next t) :
    s.st ≠ .frameComplete ∧ n ≤ dataSize data ∧ feedBytes ((dataBytes data).take n) s = .next t := by
  obtain ⟨hst, -⟩ := unlessNested_eq_next h
  by_cases hn : n ≤ dataSize data
  · exact ⟨hst, hn, (exec_rxFeedn_of_le hst hn).symm.trans h⟩
  · cases (exec_rxFeedn_of_lt hst (Nat.lt_of_not_le hn)).symm.trans h

theorem execStep_of_classInstr {b : Byte} {c : ByteClass} (h : exec (classInstr b c) s = .next t) :
    ExecStep s (classInstr b c) t := by
  rw [exec_classInstr] at h
  obtain ⟨hc, hfeed⟩ := whenClass_eq_next h
  exact .byteClass b c hc (feedByte_eq_next_iff.mp hfeed)

/-- Every way an instruction answers a next state. -/
theorem execStep_of_exec (h : exec i s = .next t) : ExecStep s i t := by
  cases i with
  | crcCalc seed data length =>
    obtain ⟨r, rfl⟩ := calculate_eq_next h
    exact .crcCalc seed data length r
  | crcCalco offset seed data length =>
    obtain ⟨r, rfl⟩ := calculate_eq_next h
    exact .crcCalco offset seed data length r
  | rxFeed b => exact .rxFeed b (feedByte_eq_next_iff.mp h)
  | rxFeedn data n =>
    obtain ⟨hst, hn, hfeed⟩ := exec_rxFeedn_eq_next h
    exact .rxFeedn hst data n hn hfeed
  | rxReset =>
    obtain ⟨hst, hnext⟩ := unlessNested_eq_next h
    exact Host.Outcome.next.inj hnext ▸ .rxReset hst
  | rxSetvh hid =>
    obtain ⟨hst, hnext⟩ := unlessNested_eq_next h
    exact Host.Outcome.next.inj hnext ▸ .rxSetvh hst hid
  | rxSetro hid =>
    obtain ⟨hst, hnext⟩ := unlessNested_eq_next h
    exact Host.Outcome.next.inj hnext ▸ .rxSetro hst hid
  | byteMarker b => exact execStep_of_classInstr (c := .marker) h
  | byteNoise b => exact execStep_of_classInstr (c := .noise) h
  | byteLen b => exact execStep_of_classInstr (c := .len) h
  | byteBadlen b => exact execStep_of_classInstr (c := .badLen) h
  | byteBody b => exact execStep_of_classInstr (c := .body) h
  | byteLast b => exact execStep_of_classInstr (c := .last) h

/-! #### Invariant and progress -/

/-- The invariant does not speak of the slots, the results or the host's list. -/
theorem Inv.update (h : Inv s) (vh ro : Option HandlerId) (results : List Byte) (inbox : List Signal) :
    Inv { s with vh := vh, ro := ro, results := results, inbox := inbox } :=
  ⟨h.engine, h.canon, h.cap, h.phase⟩

theorem FeedStep.keeps_inv {b : Byte} (hstep : FeedStep b s t) (h : Inv s) : Inv t := by
  obtain ⟨u, hfeed, hu⟩ := feedByte_keeps_inv h b
  exact Host.Outcome.next.inj (hfeed.symm.trans hstep.feedByte_eq) ▸ hu

theorem ExecStep.keeps_inv (hstep : ExecStep s i t) (h : Inv s) : Inv t := by
  cases hstep with
  | crcCalc | crcCalco => exact h.update s.vh s.ro _ s.inbox
  | rxReset => exact h.toSeeking
  | rxSetvh _ hid => exact h.update (some hid) s.ro s.results s.inbox
  | rxSetro _ hid => exact h.update s.vh (some hid) s.results s.inbox
  | rxFeed _ hfeed | byteClass _ _ _ hfeed => exact hfeed.keeps_inv h
  | rxFeedn _ data n _ hfeed =>
    obtain ⟨u, hbatch, hu⟩ := h.feedBytes ((dataBytes data).take n)
    exact Host.Outcome.next.inj (hbatch.symm.trans hfeed) ▸ hu

/-- What no instruction changes: the parameters, the engine and the host's list. -/
theorem ExecStep.constants (hstep : ExecStep s i t) : t.engine = s.engine ∧ t.cfg = s.cfg ∧ t.inbox = s.inbox := by
  cases hstep with
  | crcCalc | crcCalco | rxReset | rxSetvh | rxSetro => exact ⟨rfl, rfl, rfl⟩
  | rxFeed _ hfeed | byteClass _ _ _ hfeed => exact ⟨hfeed.frame.engine, hfeed.frame.cfg, hfeed.frame.inbox⟩
  | rxFeedn _ _ _ _ hfeed =>
    have hframe := feedBytes_frame hfeed
    exact ⟨hframe.engine, hframe.cfg, hframe.inbox⟩

/-- An operation within the caller's contract completes at a boundary (R195, R233). -/
theorem Inv.exec_of_decodeCommand (h : Inv s) {p : Ports} (hi : decodeCommand p = .ok i)
    (hwf : i.wf s.cfg = true) : ∃ t, exec i s = .next t := by
  have hidle := h.st_ne_frameComplete
  have hcalc : ∀ offset seed data length, inRange data offset length = true →
      ∃ t, calculate offset seed data length s = .next t := fun offset seed data length hrange => by
    rw [calculate, dataRange, if_pos hrange]
    exact ⟨_, rfl⟩
  rcases decodeCommand_cases hi with ⟨-, rfl⟩ | ⟨-, rfl⟩ | ⟨-, rfl⟩ | ⟨-, rfl⟩ | ⟨-, rfl⟩ | ⟨-, rfl⟩ | ⟨-, rfl⟩
  · exact hcalc _ _ _ _ hwf
  · exact hcalc _ _ _ _ hwf
  · obtain ⟨t, hfeed, -⟩ := feedByte_keeps_inv h p.b
    exact ⟨t, hfeed⟩
  · have hn : p.n ≤ dataSize p.data := by simpa [Instr.wf, inRange] using hwf
    obtain ⟨t, hfeed, -⟩ := h.feedBytes ((dataBytes p.data).take p.n)
    exact ⟨t, (exec_rxFeedn_of_le hidle hn).trans hfeed⟩
  · exact ⟨_, exec_rxReset_of_ne hidle⟩
  · exact ⟨_, unlessNested_of_ne hidle⟩
  · exact ⟨_, unlessNested_of_ne hidle⟩

/-- What a host within its obligations presents decodes and completes at a boundary. -/
theorem Inv.exec_of_signalOk (h : Inv s) {sig : Signal} (hok : signalOk s.cfg sig = true) :
    ∃ i t, decode (decodeCtx s) sig = .ok i ∧ exec i s = .next t := by
  cases sig with
  | command p =>
    rw [signalOk] at hok
    split at hok
    · rename_i i hi
      obtain ⟨t, ht⟩ := h.exec_of_decodeCommand hi hok
      exact ⟨i, t, hi, ht⟩
    · cases hok
  | stream b =>
    obtain ⟨c, hc⟩ := h.exists_class b
    obtain ⟨t, hfeed, -⟩ := feedByte_keeps_inv h b
    exact ⟨_, t, decode_stream_eq_ok_iff.mpr ⟨c, hc, rfl⟩, (exec_classInstr_of_classify hc).trans hfeed⟩

theorem Inv.withInbox (h : Inv s) (inbox : List Signal) : Inv { s with inbox := inbox } :=
  h.update s.vh s.ro s.results inbox

end

/-- Settles O53: an idle step keeps the state, a signal that decodes is run by `exec`, and one that does not has no
next state. -/
theorem everyStepKeepsTheInvariant : Obligations.EveryStepKeepsTheInvariant := by
  intro s t hinv hstep
  cases hbox : s.inbox with
  | nil => exact Host.Outcome.next.inj ((step_of_idle hbox).symm.trans hstep) ▸ hinv
  | cons sig rest =>
    cases hdecode : decode (decodeCtx s) sig with
    | ok i =>
      rw [step_of_decode_ok hbox hdecode] at hstep
      exact (execStep_of_exec hstep).keeps_inv (hinv.withInbox rest)
    | error e => cases (step_of_decode_error hbox hdecode).symm.trans hstep

/-- Settles O54: what the host presents completes, and what it has still to present is the rest of its list under the
same parameters. -/
theorem conformingHostIsNeverStopped : Obligations.ConformingHostIsNeverStopped := by
  intro s hinv hhost
  cases hbox : s.inbox with
  | nil => exact ⟨s, step_of_idle hbox, hinv, hhost⟩
  | cons sig rest =>
    have hok : signalOk s.cfg sig = true := hhost sig (by simp [hbox])
    obtain ⟨i, t, hdecode, hexec⟩ := (hinv.withInbox rest).exec_of_signalOk hok
    have hstep := execStep_of_exec hexec
    obtain ⟨-, hcfg, hinbox⟩ := hstep.constants
    refine ⟨t, (step_of_decode_ok hbox hdecode).trans hexec, hstep.keeps_inv (hinv.withInbox rest), ?_⟩
    intro later hlater
    rw [hinbox] at hlater
    rw [hcfg]
    exact hhost later (by simp [hbox, hlater])

/-- Settles O55: both are among the constants of `ExecStep`. -/
theorem tableAndParametersAreNeverWritten : Obligations.TableAndParametersAreNeverWritten := by
  intro i s t h
  obtain ⟨hengine, hcfg, -⟩ := (execStep_of_exec h).constants
  exact ⟨hengine, hcfg⟩

/-- Settles O56: a feed keeps both slots, and a registration fills its own. -/
theorem slotsChangeByRegistrationAlone : Obligations.SlotsChangeByRegistrationAlone := by
  intro i s t h
  cases execStep_of_exec h with
  | crcCalc | crcCalco | rxReset => exact ⟨fun _ => rfl, fun _ => rfl, id, id⟩
  | rxSetvh _ hid => exact ⟨fun hne => absurd rfl (hne hid), fun _ => rfl, fun _ => rfl, id⟩
  | rxSetro _ hid => exact ⟨fun _ => rfl, fun hne => absurd rfl (hne hid), id, fun _ => rfl⟩
  | rxFeed _ hfeed | byteClass _ _ _ hfeed =>
    rw [hfeed.frame.vh, hfeed.frame.ro]
    exact ⟨fun _ => rfl, fun _ => rfl, id, id⟩
  | rxFeedn _ _ _ _ hfeed =>
    rw [(feedBytes_frame hfeed).vh, (feedBytes_frame hfeed).ro]
    exact ⟨fun _ => rfl, fun _ => rfl, id, id⟩

/-- A feed only appends events, and none while both slots are empty. -/
theorem FeedFrame.out_grows {s t : State} (h : FeedFrame s t) :
    (∃ events, t.out = s.out ++ events) ∧ (s.vh = none ∧ s.ro = none → t.out = s.out) := by
  obtain ⟨frames, hout⟩ := h.out
  exact ⟨⟨_, hout⟩, fun ⟨hvh, hro⟩ => by rw [hout, hvh, hro, batchEvents_none, List.append_nil]⟩

/-- Settles O57: only feeds emit, and among them only the byte that completes a frame. -/
theorem eventsComeOnlyFromCompletedFrames : Obligations.EventsComeOnlyFromCompletedFrames := by
  intro i s t h
  cases execStep_of_exec h with
  | crcCalc | crcCalco | rxReset | rxSetvh | rxSetro =>
    exact ⟨⟨[], (List.append_nil _).symm⟩, fun _ => rfl, fun _ _ _ => rfl⟩
  | rxFeed b hfeed =>
    obtain ⟨hgrows, hsilent⟩ := hfeed.frame.out_grows
    exact ⟨hgrows, hsilent, fun _ hother _ => hfeed.out_eq (hother b rfl)⟩
  | rxFeedn _ data n _ hfeed =>
    obtain ⟨hgrows, hsilent⟩ := (feedBytes_frame hfeed).out_grows
    exact ⟨hgrows, hsilent, fun _ _ hne => absurd rfl (hne data n)⟩
  | byteClass b c hc hfeed =>
    obtain ⟨hgrows, hsilent⟩ := hfeed.frame.out_grows
    refine ⟨hgrows, hsilent, fun hne _ _ => hfeed.out_eq ?_⟩
    by_contra hlast
    obtain ⟨hst, hneed⟩ : s.st = .readingPayload ∧ s.need = 1 := by simpa [not_or] using hlast
    rw [classify_of_payload_last hst hneed] at hc
    exact hne b (by rw [← Except.ok.inj hc, classInstr])

/-- Settles O37: what each rule stores, and the frame of a feed. -/
theorem rxFeedFrame : Obligations.RxFeedFrame := by
  intro s t b h
  have hstep : FeedStep b s t := feedByte_eq_next_iff.mp h
  obtain ⟨hcfg, hengine, hvh, hro, hresults, hinbox, -⟩ := hstep.frame
  refine ⟨fun _ => hstep.read_of_ne, fun _ => hstep.read_of_eq, hcfg, hengine, hvh, hro, hresults, hinbox, ?_⟩
  cases hstep with
  | last _ _ _ view ok _ => exact ⟨_, rfl, frameEvents_length_le s.vh s.ro view ok⟩
  | _ => exact ⟨[], (List.append_nil _).symm, Nat.zero_le 2⟩

/-- Settles O38: the batch is fed byte by byte, each with its own frame. -/
theorem rxFeednFrame : Obligations.RxFeednFrame := by
  intro s t data n h
  obtain ⟨-, -, hfeed⟩ := exec_rxFeedn_eq_next h
  have hframe := feedBytes_frame hfeed
  exact ⟨fun _ => feedBytes_read_of_notMem hfeed, hframe.cfg, hframe.engine, hframe.vh, hframe.ro, hframe.results,
    hframe.inbox, hframe.out_grows.1⟩

end Sys2Proof.Machine

/-! ### Two receivers fed the same bytes (41_frame_receiver.md R147; 42_receiver_control.md R176)

Neither the slots nor what has been emitted before nor the dead bytes of the buffer decide what a byte does. Two
receivers that are alike in the rest stay so over any bytes, and complete the same frames with the same verdicts. -/

namespace Sys2Proof.Machine

/-- Two receivers alike in all that decides what they do with a byte: slots, events and dead bytes are left out. The
last field says that a marker waiting for its length is no dead byte, which at a boundary `pos = 1` says already. -/
structure Alike (s u : State) : Prop where
  cfg    : u.cfg = s.cfg
  engine : u.engine = s.engine
  st     : u.st = s.st
  pos    : u.pos = s.pos
  need   : u.need = s.need
  read   : ∀ i < s.pos, u.buf.read i = s.buf.read i
  marker : s.st = .readingLength → u.buf.read 0 = s.buf.read 0

section
variable {s t u : State} {b : Byte}

theorem Alike.readByte (h : Alike s u) (i : Nat) : Machine.readByte u i = Machine.readByte s i := by
  by_cases hi : i < s.pos
  · simp only [Machine.readByte, h.pos, if_pos hi, h.read i hi]
  · simp only [Machine.readByte, h.pos, if_neg hi]

theorem Alike.readRange (h : Alike s u) (i n : Nat) : Machine.readRange u i n = Machine.readRange s i n := by
  induction n generalizing i with
  | zero => rfl
  | succ n ih => simp only [Machine.readRange, h.readByte, ih]

/-- The check of a complete frame sees the bytes below `pos` and the engine alone (R145). -/
theorem Alike.checkFrame (h : Alike s u) : Machine.checkFrame u = Machine.checkFrame s := by
  simp only [Machine.checkFrame, h.readRange, h.readByte, h.pos, h.engine]

/-- The same byte stored at `pos` makes one more byte alike. -/
theorem Alike.read_write_pos (h : Alike s u) (b : Byte) :
    ∀ i < s.pos + 1, (u.buf.write u.pos b).read i = (s.buf.write s.pos b).read i := by
  intro i hi
  rw [read_write, read_write, h.pos]
  split
  · rfl
  · exact h.read i (by omega)

theorem Alike.withLastByte (h : Alike s u) (b : Byte) :
    Alike (Machine.withLastByte b s) (Machine.withLastByte b u) where
  cfg := h.cfg
  engine := h.engine
  st := rfl
  pos := congrArg Nat.succ h.pos
  need := rfl
  read := h.read_write_pos b
  marker := nofun

/-- What two runs over the same bytes share, the first from `s` to `t`, the second from `u` to `v`: the receivers are
alike, the buffers equal if they were, and both have been shown the same frames with the same verdicts. -/
structure FedAlike (s t u v : State) (frames : List (List Byte × Bool)) : Prop where
  alike  : Alike t v
  buf    : u.buf = s.buf → v.buf = t.buf
  first  : t.out = s.out ++ batchEvents s.vh s.ro frames
  second : v.out = u.out ++ batchEvents u.vh u.ro frames

/-- A step that completes no frame emits nothing in either run. -/
theorem FedAlike.silent {v : State} (alike : Alike t v) (buf : u.buf = s.buf → v.buf = t.buf)
    (first : t.out = s.out) (second : v.out = u.out) : FedAlike s t u v [] :=
  ⟨alike, buf, by simpa using first, by simpa using second⟩

/-- Alike receivers take the same rule for a byte. -/
theorem FeedStep.alike (hstep : FeedStep b s t) (h : Alike s u) :
    ∃ v frames, FeedStep b u v ∧ FedAlike s t u v frames := by
  cases hstep with
  | noise hst hb => exact ⟨u, [], .noise (h.st.trans hst) (h.cfg ▸ hb), .silent h id rfl rfl⟩
  | marker hst hb =>
    exact ⟨_, [], .marker (h.st.trans hst) (h.cfg ▸ hb),
      .silent ⟨h.cfg, h.engine, rfl, rfl, h.need, by simp, by simp⟩ (congrArg (Memory.write · 0 b)) rfl rfl⟩
  | len hst hb =>
    have hread : ∀ i < 2, (u.buf.write 1 b).read i = (s.buf.write 1 b).read i := by
      intro i hi
      interval_cases i <;> simp [h.marker hst]
    exact ⟨_, [], .len (h.st.trans hst) (h.cfg ▸ hb),
      .silent ⟨h.cfg, h.engine, rfl, rfl, rfl, hread, nofun⟩ (congrArg (Memory.write · 1 b)) rfl rfl⟩
  | badLenMarker hst hb hm =>
    exact ⟨_, [], .badLenMarker (h.st.trans hst) (h.cfg ▸ hb) (h.cfg ▸ hm),
      .silent ⟨h.cfg, h.engine, rfl, rfl, rfl, by simp, by simp⟩ (congrArg (Memory.write · 0 b)) rfl rfl⟩
  | badLenNoise hst hb hm =>
    exact ⟨_, [], .badLenNoise (h.st.trans hst) (h.cfg ▸ hb) (h.cfg ▸ hm),
      .silent ⟨h.cfg, h.engine, rfl, rfl, rfl, nofun, nofun⟩ id rfl rfl⟩
  | body hst hneed hpos =>
    exact ⟨_, [], .body (h.st.trans hst) (h.need ▸ hneed) (by rwa [h.pos, h.cfg]),
      .silent ⟨h.cfg, h.engine, h.st, congrArg Nat.succ h.pos, congrArg Nat.pred h.need, h.read_write_pos b,
        fun hlen => by cases hst.symm.trans hlen⟩ (fun hbuf => by rw [hbuf, h.pos]) rfl rfl⟩
  | last hst hneed hpos view ok hcheck =>
    exact ⟨_, [(view, ok)], .last (h.st.trans hst) (h.need.trans hneed) (by rwa [h.pos, h.cfg]) view ok
      ((h.withLastByte b).checkFrame.trans hcheck),
      ⟨h.cfg, h.engine, rfl, rfl, rfl, nofun, nofun⟩, fun hbuf => by rw [hbuf, h.pos], by simp, by simp⟩

theorem feedBytes_alike {bytes : List Byte} (hfeed : feedBytes bytes s = .next t) (h : Alike s u) :
    ∃ v frames, feedBytes bytes u = .next v ∧ FedAlike s t u v frames := by
  induction bytes generalizing s u with
  | nil =>
    obtain rfl := Host.Outcome.next.inj hfeed
    exact ⟨u, [], rfl, .silent h id rfl rfl⟩
  | cons b rest ih =>
    obtain ⟨s', hstep, hrest⟩ := feedBytes_cons_eq_next_iff.mp hfeed
    obtain ⟨u', first, hstep', hfirst⟩ := hstep.alike h
    obtain ⟨v, later, hrest', hlater⟩ := ih hrest hfirst.alike
    refine ⟨v, first ++ later, feedBytes_cons_eq_next_iff.mpr ⟨u', hstep', hrest'⟩, hlater.alike,
      hlater.buf ∘ hfirst.buf, ?_, ?_⟩
    · rw [hlater.first, hfirst.first, hstep.frame.vh, hstep.frame.ro, batchEvents_append, List.append_assoc]
    · rw [hlater.second, hfirst.second, hstep'.frame.vh, hstep'.frame.ro, batchEvents_append, List.append_assoc]

/-! #### What the valid-frame handler sees -/

theorem validOnly_append (a c : List Event) : validOnly (a ++ c) = validOnly a ++ validOnly c := by
  induction a with
  | nil => rfl
  | cons e rest ih => cases e <;> simp [validOnly, ih]

/-- The valid-frame events of a frame are those of a receiver without an observer (R146, R147). -/
theorem validOnly_frameEvents (vh ro : Option HandlerId) (view : List Byte) (ok : Bool) :
    validOnly (frameEvents vh ro view ok) = frameEvents vh none view ok := by
  cases vh <;> cases ro <;> cases ok <;> rfl

theorem validOnly_batchEvents (vh ro : Option HandlerId) (frames : List (List Byte × Bool)) :
    validOnly (batchEvents vh ro frames) = batchEvents vh none frames := by
  induction frames with
  | nil => rfl
  | cons f rest ih =>
    simp only [batchEvents, List.flatMap_cons] at ih ⊢
    rw [validOnly_append, validOnly_frameEvents, ih]

end

/-- Settles O58: receivers that differ in the observer's slot alone are alike, so they are shown the same frames. -/
theorem observerDoesNotAlterDelivery : Obligations.ObserverDoesNotAlterDelivery := by
  intro s t ro bytes hfeed
  have halike : Alike s { s with ro := ro } := ⟨rfl, rfl, rfl, rfl, rfl, fun _ _ => rfl, fun _ => rfl⟩
  obtain ⟨u, frames, hfeed', hrun⟩ := feedBytes_alike hfeed halike
  have hframe := feedBytes_frame hfeed
  have hframe' := feedBytes_frame hfeed'
  refine ⟨u, hfeed', ?_, fun events hout => ⟨_, hrun.second, ?_⟩⟩
  · have hvh : u.vh = t.vh := hframe'.vh.trans hframe.vh.symm
    have hresults : u.results = t.results := hframe'.results.trans hframe.results.symm
    have hinbox : u.inbox = t.inbox := hframe'.inbox.trans hframe.inbox.symm
    simp only [← hrun.alike.cfg, ← hrun.alike.engine, ← hrun.alike.st, ← hrun.alike.pos, ← hrun.alike.need,
      ← hrun.buf rfl, ← hvh, ← hresults, ← hinbox, ← show u.ro = ro from hframe'.ro]
  · obtain rfl : events = batchEvents s.vh s.ro frames := List.append_cancel_left (hout.symm.trans hrun.first)
    rw [validOnly_batchEvents, validOnly_batchEvents]

/-- Settles O59: a receiver just reset and a new one are alike, with the same slots and the same events so far. -/
theorem noResidueAfterReset : Obligations.NoResidueAfterReset := by
  intro s bytes hinv
  obtain ⟨t, hfeed, -⟩ := hinv.toSeeking.feedBytes bytes
  have halike : Alike (toSeeking s) { s with st := .seekingMarker, buf := [], pos := 0, need := 0 } :=
    ⟨rfl, rfl, rfl, rfl, rfl, nofun, nofun⟩
  obtain ⟨u, frames, hfeed', hrun⟩ := feedBytes_alike hfeed halike
  obtain ⟨-, -, hst, hpos, hneed, hread, -⟩ := hrun.alike
  exact ⟨toSeeking s, t, u, exec_rxReset_of_ne hinv.st_ne_frameComplete, hfeed, hfeed',
    hrun.first.trans hrun.second.symm, hst.symm, hpos.symm, hneed.symm, fun i hi => (hread i hi).symm⟩

end Sys2Proof.Machine

/-! ### Single feeds, batches and receiver control, one statement at a time (41_frame_receiver.md sections 1, 3 and 4;
42_receiver_control.md) -/

namespace Sys2Proof.Machine

section
variable {s t : State} {b : Byte}

/-! #### A byte in `READING_LENGTH` -/

/-- The condition of a byte's class is the one its instruction runs under, so the rule the byte takes is the
instruction's next state. -/
theorem FeedStep.exec_classInstr (hstep : FeedStep b s t) {c : ByteClass} (hc : InClass (decodeCtx s) b c) :
    exec (classInstr b c) s = .next t :=
  (exec_classInstr_of_classify (classify_eq_ok_iff.mpr hc)).trans hstep.feedByte_eq

theorem feedNotes_of_isLength (hst : s.st = .readingLength) (hb : isLength s.cfg b = true) : feedNotes b s = [] := by
  simp only [feedNotes, hst, hb, if_true]

theorem feedNotes_of_not_isLength (hst : s.st = .readingLength) (hb : ¬ isLength s.cfg b = true) :
    feedNotes b s = .invalidLength :: seekNotes s.cfg b := by
  simp only [feedNotes, hst, if_neg hb]

theorem seekNotes_length_le (c : Config) (b : Byte) : (seekNotes c b).length ≤ 1 := by
  rw [seekNotes]
  split <;> simp

/-- A rejected length byte that is no marker notes two conditions, and no byte notes more (R153). -/
theorem feedNotes_length_le (h : Inv s) (b : Byte) : (feedNotes b s).length ≤ 2 := by
  have hseek := seekNotes_length_le s.cfg b
  cases hst : s.st with
  | seekingMarker =>
    rw [feedNotes_of_seekingMarker hst]
    exact Nat.le_succ_of_le hseek
  | readingLength =>
    by_cases hb : isLength s.cfg b = true
    · simp [feedNotes_of_isLength hst hb]
    · rw [feedNotes_of_not_isLength hst hb]
      exact Nat.succ_le_succ hseek
  | readingPayload => rcases feedNotes_of_payload (b := b) h hst with hnotes | hnotes <;> simp [hnotes]
  | frameComplete => exact absurd hst h.st_ne_frameComplete

/-- The byte that completes a frame notes a condition exactly when the verdict is false (R193). -/
theorem feedNotes_of_checkFrame (hst : s.st = .readingPayload) (hpos : s.pos < s.cfg.frameCap) (hneed : s.need = 1)
    {view : List Byte} {ok : Bool} (hcheck : checkFrame (withLastByte b s) = some (view, ok)) :
    feedNotes b s = if ok then [] else [.checksumMismatch] :=
  (feedNotes_of_payload_last hst hpos hneed).trans (completeNotes_of_checkFrame hcheck)

/-! #### Where the receiver stands at a boundary -/

/-- `pos` never passes the end of the buffer (R155). -/
theorem Inv.pos_le (h : Inv s) : s.pos ≤ s.cfg.frameCap := by
  obtain ⟨-, -, -, -, hmin, -, hcap, -⟩ := Config.bounds s.cfg
  have hphase := h.phase
  cases hst : s.st with
  | seekingMarker =>
    simp only [PhaseInv, hst] at hphase
    omega
  | readingLength =>
    simp only [PhaseInv, hst] at hphase
    omega
  | readingPayload =>
    obtain ⟨-, -, hpos, -⟩ := h.payload hst
    exact hpos.le
  | frameComplete => exact absurd hst h.st_ne_frameComplete

/-- In the payload phase `pos` and `need` make up the frame's length (R31). -/
theorem Inv.pos_add_need (h : Inv s) (hst : s.st = .readingPayload) :
    ∃ len, s.buf.read 1 = some len ∧ s.pos + s.need = len.toNat + 2 := by
  have hphase := h.phase
  simp only [PhaseInv, hst] at hphase
  obtain ⟨-, len, -, -, hlen, -, -, -, hsum, -⟩ := hphase
  exact ⟨len, hlen, hsum⟩

/-! #### Sequences of operations -/

/-- A batch is its feeds one after another (R150). -/
theorem feedBytes_eq_execAll (bytes : List Byte) (s : State) : feedBytes bytes s = execAll (bytes.map .rxFeed) s := by
  induction bytes generalizing s with
  | nil => rfl
  | cons b rest ih =>
    rw [feedBytes, List.map_cons, execAll, funext ih]
    rfl

theorem feedBytes_singleton (b : Byte) (s : State) : feedBytes [b] s = feedByte b s := by
  rw [feedBytes]
  cases feedByte b s <;> rfl

theorem dataRange_eq_some {d : Data} {n : Nat} {bytes : List Byte} (h : dataRange d 0 n = some bytes) :
    n ≤ dataSize d ∧ bytes = (dataBytes d).take n := by
  by_cases hn : n ≤ dataSize d
  · rw [dataRange_of_le (by omega)] at h
    exact ⟨hn, (Option.some.inj h).symm⟩
  · cases (dataRange_of_lt (offset := 0) (length := n) (by omega)).symm.trans h

/-- A feed operation feeds the bytes it presents (R154). -/
theorem exec_of_fedBytes (hst : s.st ≠ .frameComplete) {i : Instr} {bytes : List Byte}
    (h : fedBytes i = some bytes) : exec i s = feedBytes bytes s := by
  cases i with
  | rxFeed b =>
    obtain rfl := Option.some.inj h
    exact (feedBytes_singleton b s).symm
  | rxFeedn data n =>
    obtain ⟨hn, rfl⟩ := dataRange_eq_some h
    exact exec_rxFeedn_of_le hst hn
  | _ => cases h

theorem execAll_of_fedBytes {ops : List Instr} {pieces : List (List Byte)} (h : Inv s)
    (hops : ops.map fedBytes = pieces.map some) : execAll ops s = feedBytes pieces.flatten s := by
  induction ops generalizing s pieces with
  | nil =>
    obtain rfl : pieces = [] := by simpa using hops
    rfl
  | cons i rest ih =>
    cases pieces with
    | nil => simp at hops
    | cons piece pieces =>
      obtain ⟨hi, hrest⟩ := List.cons.inj hops
      obtain ⟨t, hfeed, ht⟩ := h.feedBytes piece
      rw [List.flatten_cons, feedBytes_append, execAll, exec_of_fedBytes h.st_ne_frameComplete hi, hfeed,
        andThen_next, andThen_next]
      exact ih ht hrest

end

/-- Settles O27: a length inside the bounds is of class LEN. -/
theorem acceptedLengthEffect : Obligations.AcceptedLengthEffect := by
  intro s b hst hmin hmax
  have hb : isLength s.cfg b = true := isLength_iff.mpr ⟨hmin, hmax⟩
  exact ⟨(FeedStep.len hst hb).exec_classInstr (c := .len) ⟨hst, hmin, hmax⟩, feedNotes_of_isLength hst hb⟩

/-- Settles O28: a rejected length byte is examined as a marker. -/
theorem rejectedLengthEffect : Obligations.RejectedLengthEffect := by
  intro s b hst hout
  have hb := not_isLength_iff.mpr hout
  have hc : InClass (decodeCtx s) b .badLen := ⟨hst, hout⟩
  rw [feedNotes_of_not_isLength hst hb]
  refine ⟨fun hm => ⟨(FeedStep.badLenMarker hst hb hm).exec_classInstr hc, ?_⟩,
    fun hm => ⟨(FeedStep.badLenNoise hst hb hm).exec_classInstr hc, ?_⟩⟩
  · rw [seekNotes_of_mem hm]
  · rw [seekNotes_of_notMem hm]

/-- Settles O34: a decoded byte is of its class, and RX.FEED completes at a boundary. -/
theorem rxFeedRunsTheClassOfItsByte : Obligations.RxFeedRunsTheClassOfItsByte := by
  refine ⟨fun s b i hi => ?_, fun s b hinv => ?_⟩
  · obtain ⟨c, hc, rfl⟩ := decode_stream_eq_ok_iff.mp hi
    exact (exec_classInstr_of_classify hc).symm
  · obtain ⟨t, hfeed, ht⟩ := feedByte_keeps_inv hinv b
    exact ⟨t, hfeed, ht, feedNotes_length_le hinv b⟩

/-- Settles O35: each rule of R141 to R148 is one row of the table. -/
theorem stateGraphIsComplete : Obligations.StateGraphIsComplete := by
  refine ⟨fun i s t h hother => ?_, fun s b hinv => ⟨⟨_, exec_rxReset_of_ne hinv.st_ne_frameComplete, rfl⟩, ?_⟩⟩
  · rcases hother with ⟨_, _, _, rfl⟩ | ⟨_, _, _, _, rfl⟩ | ⟨_, rfl⟩ | ⟨_, rfl⟩
    · obtain ⟨r, rfl⟩ := calculate_eq_next h
      rfl
    · obtain ⟨r, rfl⟩ := calculate_eq_next h
      rfl
    · obtain ⟨-, hnext⟩ := unlessNested_eq_next h
      obtain rfl := Host.Outcome.next.inj hnext
      rfl
    · obtain ⟨-, hnext⟩ := unlessNested_eq_next h
      obtain rfl := Host.Outcome.next.inj hnext
      rfl
  · obtain ⟨t, hfeed, -⟩ := feedByte_keeps_inv hinv b
    have hstep := feedByte_eq_next_iff.mp hfeed
    cases hstep with
    | noise hst hb => exact ⟨s, [], hfeed, by simp, by simp [hst, hb]⟩
    | marker hst hb => exact ⟨_, [], hfeed, by simp, by simp [hst, hb]⟩
    | len hst hb =>
      have hbounds : 2 ≤ b.toNat ∧ b.toNat ≤ s.cfg.lenMax := isLength_iff.mp hb
      exact ⟨_, [], hfeed, by simp, by simp [hst, hbounds]⟩
    | badLenMarker hst hb hm =>
      have hbounds : ¬ (2 ≤ b.toNat ∧ b.toNat ≤ s.cfg.lenMax) := fun h => hb (isLength_iff.mpr h)
      exact ⟨_, [], hfeed, by simp, by simp only [hst, if_neg hbounds, if_pos hm, and_self]⟩
    | badLenNoise hst hb hm =>
      have hbounds : ¬ (2 ≤ b.toNat ∧ b.toNat ≤ s.cfg.lenMax) := fun h => hb (isLength_iff.mpr h)
      exact ⟨_, [], hfeed, by simp, by simp only [hst, if_neg hbounds, if_neg hm, and_self]⟩
    | body hst hneed hpos => exact ⟨_, [], hfeed, by simp, by simp [hst, hneed]⟩
    | last hst hneed hpos view ok hcheck =>
      refine ⟨_, _, hfeed, rfl, ?_⟩
      have hnotes := feedNotes_of_checkFrame hst hpos hneed hcheck
      simp only [hst, if_neg hneed.not_gt, true_and]
      exact ⟨view, ok, rfl, by rw [hnotes]; cases ok <;> simp⟩

/-- Settles O36: within the contract a batch is `feedBytes`, which is RX.FEED after RX.FEED. -/
theorem rxFeednIsItsFeedsInOrder : Obligations.RxFeednIsItsFeedsInOrder := by
  intro s data n hinv hn
  have hidle := hinv.st_ne_frameComplete
  rw [exec_rxFeedn_of_le hidle hn, exec_rxFeedn_of_le hidle (Nat.zero_le _)]
  exact ⟨feedBytes_eq_execAll _ s, hinv.feedBytes _, rfl⟩

/-- Settles O39: every rule stores inside the buffer, and R31 holds again after it. -/
theorem noStoreLeavesTheBuffer : Obligations.NoStoreLeavesTheBuffer := by
  intro s b hinv
  obtain ⟨u, hfeed, hu⟩ := feedByte_keeps_inv hinv b
  have hstep := feedByte_eq_next_iff.mp hfeed
  refine ⟨fun _ => hstep.storeIndex_lt, fun t ht => ?_⟩
  obtain rfl := Host.Outcome.next.inj (hfeed.symm.trans ht)
  rw [← hstep.frame.cfg]
  exact ⟨hu.pos_le, hu.pos_add_need⟩

/-- Settles O40: both sides feed the bytes of the pieces in order. -/
theorem chunkingDoesNotMatter : Obligations.ChunkingDoesNotMatter := by
  intro s ops pieces hinv hops
  obtain ⟨t, hfeed, -⟩ := hinv.feedBytes pieces.flatten
  rw [execAll_of_fedBytes hinv hops, exec_rxFeedn_buffer hinv.st_ne_frameComplete]
  exact ⟨rfl, t, hfeed⟩

/-! #### Receiver control -/

/-- Settles O47. -/
theorem rxResetEffect : Obligations.RxResetEffect := fun _ hst =>
  ⟨exec_rxReset_of_ne hst, readByte_of_pos_zero rfl⟩

theorem exec_rxSetvh_of_ne {s : State} (hst : s.st ≠ .frameComplete) (h : HandlerId) :
    exec (.rxSetvh h) s = .next { s with vh := some h } := unlessNested_of_ne hst

theorem exec_rxSetro_of_ne {s : State} (hst : s.st ≠ .frameComplete) (h : HandlerId) :
    exec (.rxSetro h) s = .next { s with ro := some h } := unlessNested_of_ne hst

/-- Settles O48. -/
theorem rxSetvhEffect : Obligations.RxSetvhEffect := fun _ h hst => exec_rxSetvh_of_ne hst h

/-- Settles O49. -/
theorem rxSetroEffect : Obligations.RxSetroEffect := fun _ h hst => exec_rxSetro_of_ne hst h

theorem unlessNested_of_frameComplete {s : State} (hst : s.st = .frameComplete) (o : Result) :
    unlessNested s o = .refused .nestedOperation := if_pos hst

theorem classify_of_frameComplete {s : State} (hst : s.st = .frameComplete) (b : Byte) :
    classify (decodeCtx s) b = .error .insideHandler := by
  rw [classify, decodeCtx_st, hst]

theorem calculate_of_le {offset length : Nat} {data : Data} (h : offset + length ≤ dataSize data) (seed : Byte)
    (s : State) : calculate offset seed data length s = .next { s with
      results := s.results ++ [engineCrc s.engine seed (((dataBytes data).drop offset).take length)] } := by
  rw [calculate, dataRange_of_le h]

/-- Settles O51: every receiver operation looks at `st` first, and an engine call does not look at it. -/
theorem operationFromInsideAHandlerIsRefused : Obligations.OperationFromInsideAHandlerIsRefused := by
  intro s hst
  refine ⟨fun b data n h c i hi => ?_, fun offset seed data length hrange =>
    ⟨_, calculate_of_le hrange seed s, _, calculate_of_le (by omega) seed s⟩⟩
  have hnested := unlessNested_of_frameComplete hst
  have hclass := classify_of_frameComplete hst b
  simp only [List.mem_cons, List.not_mem_nil, or_false] at hi
  rcases hi with rfl | rfl | rfl | rfl | rfl | rfl
  · exact feedByte_of_classify_error hclass
  · exact hnested _
  · exact hnested _
  · exact hnested _
  · exact hnested _
  · rw [exec_classInstr, whenClass, hclass]

end Sys2Proof.Machine

/-! ### The Checksum Engine and the state after construction (40_checksum_engine.md R110 to R121; 10_state.md R37 to
R41)

A round is additive over exclusive or and has a trivial kernel. All laws of `CRC8` follow from these two facts by
induction over the rounds and over the bytes. -/

namespace Sys2Proof.Machine

section
variable {x y s : Byte}

/-! #### Rounds -/

theorem shl1_xor (x y : Byte) : shl1 (x ^^^ y) = shl1 x ^^^ shl1 y := BitVec.shiftLeft_xor_distrib x y 1

theorem round1_eq_xor (c : Byte) : round1 c = shl1 c ^^^ if c.getLsbD 7 then poly else 0 := by
  rw [round1]
  split
  · rfl
  · exact BitVec.xor_zero.symm

theorem round1_xor (x y : Byte) : round1 (x ^^^ y) = round1 x ^^^ round1 y := by
  have htop : (if (x ^^^ y).getLsbD 7 then poly else 0) =
      (if x.getLsbD 7 then poly else 0) ^^^ (if y.getLsbD 7 then poly else 0) := by
    rw [BitVec.getLsbD_xor]
    cases x.getLsbD 7 <;> cases y.getLsbD 7 <;> decide
  rw [round1_eq_xor, round1_eq_xor x, round1_eq_xor y, shl1_xor, htop]
  ac_rfl

theorem rounds_xor (k : Nat) (x y : Byte) : rounds k (x ^^^ y) = rounds k x ^^^ rounds k y := by
  induction k generalizing x y with
  | zero => rfl
  | succ k ih => rw [rounds, round1_xor, ih, rounds, rounds]

@[simp] theorem rounds_zero (k : Nat) : rounds k 0 = 0 := by
  induction k with
  | zero => rfl
  | succ k ih => rw [rounds, show round1 0 = 0 from by decide, ih]

/-- The polynomial is odd, so a round takes no byte but zero to zero. -/
theorem round1_eq_zero (x : Byte) (h : round1 x = 0) : x = 0 := by
  revert x
  decide

theorem round1_injective : Function.Injective round1 := by
  intro x y h
  have hzero : round1 (x ^^^ y) = 0 := by rw [round1_xor, h]; exact BitVec.xor_self
  exact BitVec.xor_eq_zero_iff.mp (round1_eq_zero _ hzero)

theorem rounds_injective (k : Nat) : Function.Injective (rounds k) := by
  induction k with
  | zero => exact Function.injective_id
  | succ k ih => exact ih.comp round1_injective

theorem round8_xor (x y : Byte) : round8 (x ^^^ y) = round8 x ^^^ round8 y := rounds_xor 8 x y

theorem round8_injective : Function.Injective round8 := rounds_injective 8

theorem round8_eq_zero_iff : round8 x = 0 ↔ x = 0 := round8_injective.eq_iff' (rounds_zero 8)

/-! #### Sequences of bytes -/

theorem crc8_cons (s x : Byte) (a : List Byte) : crc8 s (x :: a) = crc8 (update s x) a := rfl

theorem crc8_append (s : Byte) (a b : List Byte) : crc8 s (a ++ b) = crc8 (crc8 s a) b := List.foldl_append

theorem crc8_append_singleton (s x : Byte) (a : List Byte) : crc8 s (a ++ [x]) = round8 (crc8 s a ^^^ x) :=
  crc8_append s a [x]

theorem update_xor (c c' d d' : Byte) : update (c ^^^ c') (d ^^^ d') = update c d ^^^ update c' d' := by
  rw [update, update, update, ← round8_xor]
  congr 1
  ac_rfl

theorem update_left_injective (d : Byte) : Function.Injective fun c => update c d := fun _ _ h =>
  (BitVec.xor_left_inj d).mp (round8_injective h)

theorem update_right_injective (c : Byte) : Function.Injective (update c) := fun _ _ h =>
  (BitVec.xor_right_inj c).mp (round8_injective h)

theorem crc8_injective (a : List Byte) : Function.Injective fun s => crc8 s a := by
  induction a with
  | nil => exact Function.injective_id
  | cons x rest ih => exact ih.comp (update_left_injective x)

/-- No byte of a sequence can change without its checksum changing. -/
theorem crc8_set_injective (s : Byte) {a : List Byte} {i : Nat} (hi : i < a.length) :
    Function.Injective fun x => crc8 s (a.set i x) := by
  intro x y h
  simp only [List.set_eq_take_append_cons_drop, if_pos hi, crc8_append, crc8_cons] at h
  exact update_right_injective _ (crc8_injective _ h)

@[simp] theorem crc8_replicate_zero (n : Nat) : crc8 0 (List.replicate n 0) = 0 := by
  induction n with
  | zero => rfl
  | succ n ih => rw [List.replicate_succ, crc8_cons, show update 0 0 = 0 from rounds_zero 8, ih]

/-! #### Long division -/

/-- A bit fed to the division register is a round with the bit added below. -/
theorem divideBit_eq (r : Byte) (bit : Bool) : divideBit r bit = round1 r ^^^ if bit then 0x01 else 0x00 := rfl

/-- What the register holds beforehand goes through one round for each bit, beside the bits. -/
theorem foldl_divideBit_xor (bits : List Bool) (r q : Byte) :
    bits.foldl divideBit (r ^^^ q) = rounds bits.length r ^^^ bits.foldl divideBit q := by
  induction bits generalizing r q with
  | nil => rfl
  | cons bit rest ih =>
    rw [List.foldl_cons, divideBit_eq, round1_xor, BitVec.xor_assoc, ← divideBit_eq, ih]
    rfl

theorem foldl_divideBit_replicate_false (k : Nat) (r : Byte) :
    (List.replicate k false).foldl divideBit r = rounds k r := by
  induction k generalizing r with
  | zero => rfl
  | succ k ih =>
    rw [List.replicate_succ, List.foldl_cons, divideBit_eq, if_neg Bool.false_ne_true, ih]
    exact congrArg (rounds k) (BitVec.xor_zero)

/-- Eight bits fill an empty register with their byte: none leaves at the top. -/
theorem foldl_divideBit_byte (b : Byte) : (messageBits [b]).foldl divideBit 0 = b := by
  revert b
  decide

/-- The division register after a message, run on over eight zero bits, is the checksum. -/
theorem round8_foldl_messageBits (bytes : List Byte) (r : Byte) :
    round8 ((messageBits bytes).foldl divideBit r) = crc8 (round8 r) bytes := by
  induction bytes generalizing r with
  | nil => rfl
  | cons b rest ih =>
    have hsplit : messageBits (b :: rest) = messageBits [b] ++ messageBits rest := by simp [messageBits]
    have hbyte : (messageBits [b]).foldl divideBit r = round8 r ^^^ b := by
      calc (messageBits [b]).foldl divideBit r
        _ = (messageBits [b]).foldl divideBit (r ^^^ 0) := by rw [xor_zero]
        _ = round8 r ^^^ b := by rw [foldl_divideBit_xor, foldl_divideBit_byte]; rfl
    rw [hsplit, List.foldl_append, ih, hbyte, crc8_cons, update]

end

/-- Settles O19: `UPDATE` is additive in both arguments. -/
theorem checksumIsAdditive : Obligations.ChecksumIsAdditive := by
  refine ⟨round8_xor, fun s s' a => ?_⟩
  induction a generalizing s s' with
  | nil => intro a' h; rw [List.eq_nil_of_length_eq_zero h.symm]; rfl
  | cons x rest ih =>
    intro a' h
    cases a' with
    | nil => cases h
    | cons x' rest' =>
      rw [List.zipWith_cons_cons, crc8_cons, update_xor, ih _ _ _ (Nat.succ.inj h), crc8_cons, crc8_cons]

/-- Settles O20: a fold over a concatenation, and `UPDATE` of seed and byte sees their exclusive or alone. -/
theorem checksumChainsThroughTheSeed : Obligations.ChecksumChainsThroughTheSeed := by
  refine ⟨crc8_append, fun s x a => ?_⟩
  rw [crc8_cons, crc8_cons, update, update, BitVec.xor_comm x s,
    show (0x00 : Byte) ^^^ (s ^^^ x) = s ^^^ x from BitVec.zero_xor]

/-- Settles O21: an injective function on bytes is a bijection. -/
theorem checksumIsAPermutation : Obligations.ChecksumIsAPermutation := by
  refine ⟨round8_injective.bijective_of_finite, fun a => (crc8_injective a).bijective_of_finite, fun s a => ?_⟩
  have hlast : (fun x => crc8 s (a ++ [x])) = update (crc8 s a) := funext fun x => crc8_append s a [x]
  rw [hlast]
  exact (update_right_injective _).bijective_of_finite

/-- Settles O22: the checksum of interior and checksum byte is `ROUND8` of their difference. -/
theorem residueIsZero : Obligations.ResidueIsZero := by
  intro e s x a hbuilt
  simp only [crc8_append_singleton, round8_eq_zero_iff, xor_eq_zero_iff, verdict, engineCrc_of_built hbuilt,
    decide_eq_true_iff, and_self]

/-- Settles O23: zero bytes leave the seed zero, from which the sequence goes on. -/
theorem leadingZerosChangeNothing : Obligations.LeadingZerosChangeNothing := fun n a =>
  ⟨crc8_replicate_zero n, by rw [crc8_append, crc8_replicate_zero]⟩

/-- Settles O24: a byte with one bit flipped is another byte. -/
theorem everyBitFlipChangesTheChecksum : Obligations.EveryBitFlipChangesTheChecksum := by
  intro s a i hi k hk h
  have hsame : crc8 s (a.set i (a[i] ^^^ BitVec.twoPow 8 k)) = crc8 s (a.set i a[i]) := by
    rw [h, List.set_getElem_self]
  have hflip : (a[i] ^^^ BitVec.twoPow 8 k).getLsbD k = a[i].getLsbD k :=
    congrArg (BitVec.getLsbD · k) (crc8_set_injective s hi hsame)
  simp [hk] at hflip

/-- Settles O25: the register after the message's bits, then eight rounds for the eight zero bits. -/
theorem checksumIsThePolynomialRemainder : Obligations.ChecksumIsThePolynomialRemainder := by
  intro bytes
  rw [List.foldl_append, foldl_divideBit_replicate_false, ← round8, round8_foldl_messageBits,
    show round8 0x00 = 0x00 from rounds_zero 8]

/-! #### Engine calls -/

/-- A call within the contract returns `CRC8` of its range (R116, R117). -/
theorem calculate_of_built {s : State} (h : s.engine.Built) {offset length : Nat} {data : Data}
    (hrange : offset + length ≤ dataSize data) (seed : Byte) : calculate offset seed data length s = .next { s with
      results := s.results ++ [crc8 seed (((dataBytes data).drop offset).take length)] } := by
  rw [calculate_of_le hrange, engineCrc_of_built h]

theorem calculate_of_lt {s : State} {offset length : Nat} {data : Data} (h : dataSize data < offset + length)
    (seed : Byte) : calculate offset seed data length s = .refused .rangeOutsideData := by
  rw [calculate, dataRange_of_lt h]

/-- A call for no bytes returns the seed (R118). -/
theorem calculate_zero {s : State} {offset : Nat} {data : Data} (h : offset ≤ dataSize data) (seed : Byte) :
    calculate offset seed data 0 s = .next { s with results := s.results ++ [seed] } := by
  rw [calculate_of_le (length := 0) h, List.take_zero]
  rfl

/-- Settles O13. -/
theorem engineComputesTheFold : Obligations.EngineComputesTheFold := fun _ seed bytes h =>
  engineCrc_of_built h seed bytes

/-- Settles O14. -/
theorem crcCalcReturnsTheChecksum : Obligations.CrcCalcReturnsTheChecksum := fun _ seed _ _ h hrange =>
  calculate_of_built h ((Nat.zero_add _).trans_le hrange) seed

/-- Settles O15. -/
theorem crcCalcoReturnsTheChecksum : Obligations.CrcCalcoReturnsTheChecksum := fun _ _ seed _ _ h hrange =>
  calculate_of_built h hrange seed

/-- Settles O16. -/
theorem rangeOutsideTheDataIsRefused : Obligations.RangeOutsideTheDataIsRefused := fun _ _ seed _ _ _ =>
  ⟨fun h => calculate_of_lt (h.trans_eq (Nat.zero_add _).symm) seed, fun h => calculate_of_lt h seed,
    fun h hst => exec_rxFeedn_of_lt hst h⟩

/-- Settles O17. -/
theorem zeroLengthReturnsTheSeed : Obligations.ZeroLengthReturnsTheSeed := fun _ _ seed _ _ =>
  ⟨calculate_zero (Nat.zero_le _) seed, fun h => calculate_zero h seed, rfl⟩

/-- Settles O18: the two ranges are the same list of bytes. -/
theorem resultDependsOnSeedAndBytesAlone : Obligations.ResultDependsOnSeedAndBytesAlone := by
  intro s t offset offset' seed data data' length hs ht hrange hrange' hbytes
  have hsame : ((dataBytes data).drop offset).take length = ((dataBytes data').drop offset').take length := by
    refine List.ext_getElem? fun k => ?_
    by_cases hk : k < length
    · simp only [List.getElem?_take, if_pos hk, List.getElem?_drop, hbytes k hk]
    · simp only [List.getElem?_take, if_neg hk]
  refine ⟨_, _, _, calculate_of_built hs hrange seed, calculate_of_built ht hrange' seed, rfl, ?_⟩
  rw [hsame]

/-! #### Construction -/

/-- Settles O9. -/
theorem engineAfterConstruction : Obligations.EngineAfterConstruction := fun _ =>
  ⟨⟨builtTable, rfl, buildEngine_built .table⟩, rfl⟩

/-- Settles O10. -/
theorem receiverAfterConstruction : Obligations.ReceiverAfterConstruction := by
  intro strategy c
  have hstrategy : engineStrategy (buildEngine strategy) = strategy := by cases strategy <;> rfl
  exact ⟨rfl, rfl, rfl, rfl, rfl, rfl, readByte_of_pos_zero rfl, rfl, hstrategy, rfl, rfl⟩

theorem inv_construct (strategy : Strategy) (c : Config) : Inv (State.construct strategy c) :=
  ⟨buildEngine_built strategy, List.Pairwise.nil, nofun, rfl, rfl⟩

/-- Settles O11. -/
theorem invariantHoldsAtReset : Obligations.InvariantHoldsAtReset := ⟨inv_construct, inv_construct _ _⟩

end Sys2Proof.Machine

/-! ### Whole frames (41_frame_receiver.md sections 2 to 4; 30_encoding.md R80 to R82, R92)

A receiver in the middle of a frame holds the frame's bytes so far. Feeding the bytes of a frame one after another
extends what is held, emits nothing, and ends one byte short of the frame; the byte that completes it is the subject of
`MidFrame.checkFrame`. -/

namespace Sys2Proof.Machine

section
variable {s t u : State} {b m len : Byte} {bytes xs interior : List Byte} {n : Nat}

/-! #### The bytes of the frame in progress -/

/-- The readable bytes of the buffer, as a list (R59). -/
theorem held_iff : readRange s 0 s.pos = some bytes ↔
    bytes.length = s.pos ∧ ∀ k < s.pos, s.buf.read k = bytes[k]? := by
  rw [readRange_eq_some_iff]
  refine and_congr_right fun _ => forall₂_congr fun k hk => ?_
  rw [Nat.zero_add, readByte, if_pos hk]

/-- A byte stored at `pos` is held after the others. -/
theorem held_append (h : readRange s 0 s.pos = some bytes) (hpos : t.pos = s.pos + 1)
    (hbuf : t.buf = s.buf.write s.pos b) : readRange t 0 t.pos = some (bytes ++ [b]) := by
  obtain ⟨hlength, hread⟩ := held_iff.mp h
  refine held_iff.mpr ⟨by simp [hlength, hpos], fun k hk => ?_⟩
  rw [hbuf, read_write]
  split
  · rename_i hlast
    simp [hlast, ← hlength]
  · have hold : k < s.pos := by omega
    rw [hread k hold, List.getElem?_append_left (hlength ▸ hold)]

/-- A frame is in progress: `bytes` of it are held and `need` are still to come (R26, R27). -/
structure MidFrame (s : State) (bytes : List Byte) (need : Nat) : Prop where
  st   : s.st = .readingPayload
  need : s.need = need
  held : readRange s 0 s.pos = some bytes

theorem MidFrame.pos_eq (h : MidFrame s bytes n) : s.pos = bytes.length := (held_iff.mp h.held).1.symm

theorem MidFrame.read (h : MidFrame s bytes n) {k : Nat} (hk : k < bytes.length) : s.buf.read k = bytes[k]? :=
  (held_iff.mp h.held).2 k (h.pos_eq ▸ hk)

/-- A boundary state in the payload phase holds a marker, an accepted length and as many interior bytes as the length
leaves beside `need` (R31). -/
theorem Inv.midFrame (h : Inv s) (hst : s.st = .readingPayload) :
    ∃ m len interior, MidFrame s (m :: len :: interior) s.need ∧ isMarker s.cfg m = true ∧
      isLength s.cfg len = true ∧ interior.length + s.need = len.toNat := by
  obtain ⟨-, htwo, -, hwritten⟩ := h.payload hst
  have hphase := h.phase
  simp only [PhaseInv, hst] at hphase
  obtain ⟨m, len, hm, hmarker, hl, hlen, -, -, hsum, -⟩ := hphase
  obtain ⟨bytes, hheld⟩ := hwritten.readRange (i := 0) (n := s.pos) (Nat.zero_add _).le
  obtain ⟨hlength, hread⟩ := held_iff.mp hheld
  match bytes, hlength with
  | m' :: len' :: interior, hlength =>
    obtain rfl : m = m' := Option.some.inj (hm.symm.trans (hread 0 (by omega)))
    obtain rfl : len = len' := Option.some.inj (hl.symm.trans (hread 1 (by omega)))
    simp only [List.length_cons] at hlength
    exact ⟨m, len, interior, ⟨hst, rfl, hheld⟩, hmarker, hlen, by omega⟩
  | [], hlength | [_], hlength => exact absurd htwo (by simp [← hlength])

/-- The bytes of a frame before its last are stored one after another and emit nothing (R144). -/
theorem MidFrame.feedBytes (h : MidFrame s bytes (xs.length + (n + 1))) (hinv : Inv s) :
    ∃ t, Machine.feedBytes xs s = .next t ∧ MidFrame t (bytes ++ xs) (n + 1) ∧ t.out = s.out := by
  induction xs generalizing s bytes with
  | nil => exact ⟨s, rfl, by simpa using h, rfl⟩
  | cons b rest ih =>
    obtain ⟨-, -, hpos, -⟩ := hinv.payload h.st
    have hneed := h.need
    simp only [List.length_cons] at hneed
    have hstep : FeedStep b s _ := .body h.st (by omega) hpos
    have hmid : MidFrame { s with buf := s.buf.write s.pos b, pos := s.pos + 1, need := s.need - 1 } (bytes ++ [b])
        (rest.length + (n + 1)) := ⟨h.st, by show s.need - 1 = _; omega, held_append h.held rfl rfl⟩
    obtain ⟨t, hrest, ht, hout⟩ := ih hmid (hstep.keeps_inv hinv)
    exact ⟨t, feedBytes_cons_eq_next_iff.mpr ⟨_, hstep, hrest⟩, by simpa using ht, hout⟩

/-- All bytes of a frame but its last, from `SEEKING_MARKER` (R141, R142, R144). -/
theorem feedBytes_of_completeFrame (hinv : Inv s) (hst : s.st = .seekingMarker)
    (hframe : CompleteFrame s.cfg m len interior) :
    ∃ t, feedBytes (m :: len :: interior) s = .next t ∧ MidFrame t (m :: len :: interior) 1 ∧ t.out = s.out := by
  have hphase := hinv.phase
  simp only [PhaseInv, hst] at hphase
  obtain ⟨hpos, -⟩ := hphase
  have hmarker : FeedStep m s _ := .marker hst (isMarker_iff_mem.mp hframe.marker)
  have hlen : FeedStep len { s with buf := s.buf.write 0 m, pos := 1, st := .readingLength } _ :=
    .len rfl hframe.length
  have hheld : readRange s 0 s.pos = some [] := by rw [hpos]; rfl
  have hheld1 := held_append (t := { s with buf := s.buf.write 0 m, pos := 1, st := .readingLength }) (b := m) hheld
    (by rw [hpos]) (by rw [hpos])
  obtain ⟨t, hrest, ht, hout⟩ := MidFrame.feedBytes (xs := interior) (n := 0) (bytes := [m, len])
    ⟨rfl, hframe.count.symm, held_append hheld1 rfl rfl⟩ (hlen.keeps_inv (hmarker.keeps_inv hinv))
  exact ⟨t, feedBytes_cons_eq_next_iff.mpr ⟨_, hmarker, feedBytes_cons_eq_next_iff.mpr ⟨_, hlen, hrest⟩⟩, ht, hout⟩

/-! #### The byte that completes a frame -/

theorem readRange_of_checkFrame {view : List Byte} {ok : Bool} (h : checkFrame s = some (view, ok)) :
    readRange s 0 s.pos = some view := by
  rw [checkFrame] at h
  split at h
  · rename_i hview _ _
    rw [hview, (Prod.mk.inj (Option.some.inj h)).1]
  · cases h

theorem MidFrame.written (h : MidFrame s bytes n) : FrameWritten s := fun k hk => by
  have hlt := h.pos_eq ▸ hk
  rw [h.read hlt, List.getElem?_eq_getElem hlt, Option.isSome_some]

/-- The check of a complete frame sees its bytes in arrival order and compares the last with the checksum of the
interior (R145). -/
theorem MidFrame.checkFrame (h : MidFrame s (m :: len :: interior) 1) (hbuilt : s.engine.Built) (b : Byte) :
    Machine.checkFrame (withLastByte b s) =
      some (frameBytes m len interior b, decide (crc8 0x00 interior = b)) := by
  obtain ⟨view, hcheck, -⟩ := checkFrame_withLastByte (b := b) (interior := interior) h.written h.pos_eq.symm
    fun k hk => h.read (Nat.add_lt_add_right hk 2)
  have hview : view = (m :: len :: interior) ++ [b] :=
    Option.some.inj ((readRange_of_checkFrame hcheck).symm.trans (held_append h.held rfl rfl))
  rw [hcheck, hview, verdict, engineCrc_of_built hbuilt]
  rfl

/-- The byte that completes a frame: its events, then the return to `SEEKING_MARKER` (R145 to R148). -/
theorem MidFrame.last (h : MidFrame s (m :: len :: interior) 1) (hinv : Inv s) (b : Byte) :
    FeedStep b s { s with
      buf := s.buf.write s.pos b, st := .seekingMarker, pos := 0, need := 0,
      out := s.out ++ frameEvents s.vh s.ro (frameBytes m len interior b) (decide (crc8 0x00 interior = b)) } := by
  obtain ⟨-, -, hpos, -⟩ := hinv.payload h.st
  exact .last h.st h.need hpos _ _ (h.checkFrame hinv.engine b)

/-! #### Delivery -/

theorem frameBytes_length (m len : Byte) (interior : List Byte) (b : Byte) :
    (frameBytes m len interior b).length = interior.length + 3 := by
  simp [frameBytes]

/-- A whole complete frame, whatever its last byte, shows its events, and the receiver seeks the next one (R156). -/
theorem feedBytes_of_frameBytes (hinv : Inv s) (hst : s.st = .seekingMarker)
    (hframe : CompleteFrame s.cfg m len interior) (b : Byte) :
    ∃ t, feedBytes (frameBytes m len interior b) s = .next t ∧ Inv t ∧ t.out = s.out ++
        frameEvents s.vh s.ro (frameBytes m len interior b) (decide (crc8 0x00 interior = b)) ∧
      t.st = .seekingMarker ∧ t.pos = 0 ∧ t.need = 0 := by
  obtain ⟨u, hhead, hu, hout⟩ := feedBytes_of_completeFrame hinv hst hframe
  obtain ⟨u', hhead', hinvu⟩ := hinv.feedBytes (m :: len :: interior)
  obtain rfl := Host.Outcome.next.inj (hhead.symm.trans hhead')
  have hkeep := feedBytes_frame hhead
  have hlast := hu.last hinvu b
  refine ⟨_, ?_, hlast.keeps_inv hinvu, ?_, rfl, rfl, rfl⟩
  · rw [show frameBytes m len interior b = (m :: len :: interior) ++ [b] from rfl, feedBytes_append, hhead,
      andThen_next, feedBytes_singleton]
    exact hlast.feedByte_eq
  · rw [hout, hkeep.vh, hkeep.ro]

/-- A well-formed frame is delivered as valid. -/
theorem feedBytes_of_wellFormedFrame (hinv : Inv s) (hst : s.st = .seekingMarker)
    (hframe : CompleteFrame s.cfg m len interior) :
    ∃ t, feedBytes (frameBytes m len interior (crc8 0x00 interior)) s = .next t ∧ Inv t ∧
      t.out = s.out ++ frameEvents s.vh s.ro (frameBytes m len interior (crc8 0x00 interior)) true ∧
      t.st = .seekingMarker ∧ t.pos = 0 ∧ t.need = 0 := by
  simpa only [decide_true] using feedBytes_of_frameBytes hinv hst hframe (crc8 0x00 interior)

/-- Bytes that are no markers are discarded (R141). -/
theorem feedBytes_of_noise {noise : List Byte} (hst : s.st = .seekingMarker) (hnoise : ∀ b ∈ noise, b ∉ s.cfg.markers) :
    feedBytes noise s = .next s := by
  induction noise with
  | nil => rfl
  | cons b rest ih =>
    obtain ⟨hb, hrest⟩ := List.forall_mem_cons.mp hnoise
    exact feedBytes_cons_eq_next_iff.mpr ⟨s, .noise hst hb, ih hrest⟩

/-- Nothing emitted by a whole batch is nothing emitted by its first part. -/
theorem FeedFrame.out_eq_of_out_eq (hsu : FeedFrame s u) (hut : FeedFrame u t) (h : t.out = s.out) :
    u.out = s.out := by
  obtain ⟨first, hfirst⟩ := hsu.out
  obtain ⟨later, hlater⟩ := hut.out
  rw [hlater, hfirst, List.append_assoc, List.append_right_eq_self, List.append_eq_nil_iff] at h
  rw [hfirst, h.1, List.append_nil]

end

/-- Settles O30: the frame in progress is held, and its last byte completes it. -/
theorem completedFrameEffect : Obligations.CompletedFrameEffect := by
  intro s b hinv hst hneed
  obtain ⟨-, -, hpos, -⟩ := hinv.payload hst
  obtain ⟨m, len, interior, hmid, hmarker, hlen, hcount⟩ := hinv.midFrame hst
  rw [hneed] at hmid hcount
  have hpos_eq : s.pos = interior.length + 2 := hmid.pos_eq
  refine ⟨m, len, interior, hmid.read (k := 0) (by simp), hmid.read (k := 1) (by simp), ⟨hmarker, hlen, hcount⟩,
    by omega, fun k hk => hmid.read (k := k + 2) (hmid.pos_eq ▸ hk), ?_, ?_⟩
  · exact (hmid.last hinv b).exec_classInstr (c := .last) ⟨hst, hneed⟩
  · exact feedNotes_of_checkFrame hst hpos hneed (hmid.checkFrame hinv.engine b)

/-- Settles O41: noise leaves the receiver seeking, and the frame is delivered. -/
theorem wellFormedFrameIsDelivered : Obligations.WellFormedFrameIsDelivered := by
  intro s noise interior m len hinv hst hnoise hframe
  obtain ⟨t, hfeed, -, hdelivered⟩ := feedBytes_of_wellFormedFrame hinv hst hframe
  refine ⟨t, ?_, hdelivered⟩
  rw [exec_rxFeedn_buffer hinv.st_ne_frameComplete, feedBytes_append, feedBytes_of_noise hst hnoise, andThen_next]
  exact hfeed

/-- Settles O42: CRC.FRAME takes the range of the interior, whatever the checksum byte still is. -/
theorem frameBuiltWithTheEngineIsAccepted : Obligations.FrameBuiltWithTheEngineIsAccepted := by
  intro s interior m len x hinv hst hframe
  have hcalc : exec (crcFrame (frameBytes m len interior x)) s =
      .next { s with results := s.results ++ [crc8 0x00 interior] } := by
    have hrange : 2 + interior.length ≤ (frameBytes m len interior x).length := by
      rw [frameBytes_length]
      omega
    have hinterior : ((dataBytes (.buffer (frameBytes m len interior x))).drop 2).take interior.length = interior := by
      simp [dataBytes, frameBytes]
    have hlength : (frameBytes m len interior x).length - 3 = interior.length := by
      rw [frameBytes_length, Nat.add_sub_cancel]
    rw [crcFrame, hlength]
    exact (calculate_of_built hinv.engine hrange 0x00).trans (by rw [hinterior])
  have hinvt : Inv { s with results := s.results ++ [crc8 0x00 interior] } := hinv.update s.vh s.ro _ s.inbox
  obtain ⟨u, hfeed, -, hout, -⟩ := feedBytes_of_wellFormedFrame hinvt hst hframe
  refine ⟨_, _, u, hcalc, rfl, ?_, hout, rfl⟩
  have hpoll : rxPoll (frameBytes m len interior (crc8 0x00 interior)) =
    [.rxFeedn (.buffer (frameBytes m len interior (crc8 0x00 interior))) (frameBytes m len interior
      (crc8 0x00 interior)).length] := if_neg (by simp [frameBytes_length])
  rw [hpoll, execAll, exec_rxFeedn_buffer hinvt.st_ne_frameComplete, hfeed]
  rfl

/-- Settles O43: the part fed is a part of the frame without its last byte, which emits nothing as a whole. -/
theorem noEventBeforeTheLastByte : Obligations.NoEventBeforeTheLastByte := by
  intro s interior m len x k hinv hst hframe hk
  have hsplit : frameBytes m len interior x = (m :: len :: interior) ++ [x] := rfl
  have hshort : k ≤ (m :: len :: interior).length := by simpa [hsplit, Nat.lt_succ_iff] using hk
  have htake : (frameBytes m len interior x).take k = (m :: len :: interior).take k := by
    rw [hsplit, List.take_append_of_le_length hshort]
  obtain ⟨t, hhead, -, hout⟩ := feedBytes_of_completeFrame hinv hst hframe
  rw [← List.take_append_drop k (m :: len :: interior), feedBytes_append] at hhead
  obtain ⟨u, hpart, hrest⟩ := andThen_eq_next.mp hhead
  refine ⟨u, ?_, (feedBytes_frame hpart).out_eq_of_out_eq (feedBytes_frame hrest) hout⟩
  calc exec (.rxFeedn (.buffer (frameBytes m len interior x)) k) s
    _ = feedBytes ((frameBytes m len interior x).take k) s :=
      exec_rxFeedn_of_le (data := .buffer (frameBytes m len interior x)) hinv.st_ne_frameComplete hk.le
    _ = .next u := by rw [htake, hpart]

/-- The induction behind O44, over the frames of the batch. -/
theorem feedBytes_of_wellFormedFrames {s : State} (hinv : Inv s) (hst : s.st = .seekingMarker)
    {frames : List (Byte × Byte × List Byte)} (hframes : ∀ f ∈ frames, CompleteFrame s.cfg f.1 f.2.1 f.2.2) :
    ∃ t, feedBytes (frames.map fun f => frameBytes f.1 f.2.1 f.2.2 (crc8 0x00 f.2.2)).flatten s = .next t ∧
      t.st = .seekingMarker ∧
      t.out = s.out ++ ((frames.map fun f => frameBytes f.1 f.2.1 f.2.2 (crc8 0x00 f.2.2)).map fun f =>
        frameEvents s.vh s.ro f true).flatten := by
  induction frames generalizing s with
  | nil => exact ⟨s, rfl, hst, by simp⟩
  | cons f rest ih =>
    obtain ⟨hf, hrest⟩ := List.forall_mem_cons.mp hframes
    obtain ⟨u, hfeed, hinvu, hout, hstu, -⟩ := feedBytes_of_wellFormedFrame hinv hst hf
    have hkeep := feedBytes_frame hfeed
    obtain ⟨t, hfeeds, hstt, houts⟩ := ih hinvu hstu (by rwa [hkeep.cfg])
    refine ⟨t, ?_, hstt, ?_⟩
    · rw [List.map_cons, List.flatten_cons, feedBytes_append, hfeed, andThen_next, hfeeds]
    · rw [houts, hout, hkeep.vh, hkeep.ro, List.map_cons, List.map_cons, List.flatten_cons, List.append_assoc]

/-- Settles O44: the receiver seeks again after each frame. -/
theorem framesAreDeliveredInOrder : Obligations.FramesAreDeliveredInOrder := by
  intro s frames hinv hst hframes
  obtain ⟨t, hfeed, hdelivered⟩ := feedBytes_of_wellFormedFrames hinv hst hframes
  exact ⟨t, (exec_rxFeedn_buffer hinv.st_ne_frameComplete _).trans hfeed, hdelivered⟩

/-- Settles O46: after a false start C8 05 11 22 the frame C8 03 02 AA 0B loses its first three bytes to a frame that
fails its check, and the rest is noise. -/
theorem genuineFrameCanBeLost : Obligations.GenuineFrameCanBeLost := by
  have hinv : Inv { State.construct .bitserial defaultConfig with vh := some ⟨1⟩ } :=
    (inv_construct .bitserial defaultConfig).update (some ⟨1⟩) none [] []
  have hstart : CompleteFrame defaultConfig 0xC8 0x05 [0x11, 0x22, 0xC8, 0x03] := ⟨rfl, rfl, rfl⟩
  obtain ⟨t, hfeed, -, hout, hst, -⟩ := feedBytes_of_frameBytes hinv rfl hstart 0x02
  have hinvalid : crc8 0x00 [0x11, 0x22, 0xC8, 0x03] ≠ 0x02 := by decide +kernel
  have hchecksum : crc8 0x00 [0x02, 0xAA] = 0x0B := by decide +kernel
  refine ⟨_, t, [0xC8, 0x05, 0x11, 0x22], [0x02, 0xAA], 0xC8, 0x03, ⟨1⟩, hinv, rfl, rfl, ⟨rfl, rfl, rfl⟩, ?_⟩
  have hnoise : feedBytes [0xAA, 0x0B] t = .next t := feedBytes_of_noise hst (by
    rw [(feedBytes_frame hfeed).cfg]
    decide)
  have hbytes : [0xC8, 0x05, 0x11, 0x22] ++ frameBytes 0xC8 0x03 [0x02, 0xAA] 0x0B =
    frameBytes 0xC8 0x05 [0x11, 0x22, 0xC8, 0x03] 0x02 ++ [0xAA, 0x0B] := rfl
  rw [hchecksum]
  refine ⟨(exec_rxFeedn_buffer hinv.st_ne_frameComplete _).trans ?_, hst, ?_⟩
  · rw [hbytes, feedBytes_append, hfeed, andThen_next, hnoise]
  · rw [hout, decide_eq_false hinvalid]
    exact List.not_mem_nil

/-- Settles O50: the slots decide neither the check of the frame nor what it notes. -/
theorem registrationAppliesToTheFrameInProgress : Obligations.RegistrationAppliesToTheFrameInProgress := by
  intro s b h h' hinv hst hneed
  obtain ⟨-, -, hpos, -⟩ := hinv.payload hst
  obtain ⟨m, len, interior, hmid, -⟩ := hinv.midFrame hst
  rw [hneed] at hmid
  have hcheck := hmid.checkFrame hinv.engine b
  have halike : Alike s { s with vh := some h, ro := some h' } :=
    ⟨rfl, rfl, rfl, rfl, rfl, fun _ _ => rfl, fun _ => rfl⟩
  obtain ⟨t, hfeed, hout⟩ : ∃ t, feedByte b { s with vh := some h, ro := some h' } = .next t ∧
      t.out = s.out ++ frameEvents (some h) (some h') (frameBytes m len interior b)
        (decide (crc8 0x00 interior = b)) :=
    ⟨_, (FeedStep.last (s := { s with vh := some h, ro := some h' }) hst hneed hpos _ _
      ((halike.withLastByte b).checkFrame.trans hcheck)).feedByte_eq, rfl⟩
  have hidle := hinv.st_ne_frameComplete
  have hview : frameBytes m len interior b = (m :: len :: interior) ++ [b] := rfl
  refine ⟨t, frameBytes m len interior b, decide (crc8 0x00 interior = b), ?_, hout, ?_, ?_, fun i hi => ?_, ?_⟩
  · rw [execAll, exec_rxSetvh_of_ne hidle, andThen_next, execAll,
      exec_rxSetro_of_ne (s := { s with vh := some h }) hidle, andThen_next]
    exact congrArg (andThen · Host.Outcome.next) hfeed
  · rw [feedNotes_of_checkFrame hst hpos hneed hcheck]
    cases decide (crc8 0x00 interior = b) <;> simp
  · rw [hview, List.length_append, List.length_singleton, hmid.pos_eq]
  · have hlt := hmid.pos_eq ▸ hi
    rw [hview, List.getElem?_append_left hlt, hmid.read hlt]
  · rw [hview, hmid.pos_eq, List.getElem?_concat_length]

/-- Settles O52: the entry state is `withLastByte`. -/
theorem handlerEntryState : Obligations.HandlerEntryState := by
  intro s b hinv hst hneed
  obtain ⟨-, htwo, hpos, hwritten⟩ := hinv.payload hst
  obtain ⟨len, hlen, hsum⟩ := hinv.pos_add_need hst
  have hsecond : 1 ≠ s.pos := by omega
  refine ⟨withLastByte b s, len, storeBody_of_last hpos hneed, feedByte_of_payload_last hst hpos hneed, rfl, rfl, ?_,
    ?_, fun i hi => ?_⟩
  · show (s.buf.write s.pos b).read 1 = some len
    rw [read_write, if_neg hsecond, hlen]
  · show s.pos + 1 = len.toNat + 2
    omega
  · rw [readByte, if_pos hi]
    exact frameWritten_withLastByte hwritten i hi

/-! #### The form of the frame buffer -/

/-- An index below every listed one reads as nothing. -/
theorem read_eq_none_of_lt {m : Memory} {i : Nat} (h : ∀ c ∈ m, i < c.1) : m.read i = none := by
  induction m with
  | nil => rfl
  | cons c rest ih =>
    obtain ⟨hc, hrest⟩ := List.forall_mem_cons.mp h
    rw [Memory.read, if_neg hc.ne, ih hrest]

@[simp] theorem read_cons_self (a : Nat) (v : Byte) (m : Memory) : Memory.read ((a, v) :: m) a = some v := if_pos rfl

theorem read_cons_of_ne {a i : Nat} (h : i ≠ a) (v : Byte) (m : Memory) :
    Memory.read ((a, v) :: m) i = m.read i := if_neg h

/-- The first index listed is the least that reads as a byte. -/
theorem le_of_read_eq {a a' : Nat} {v v' : Byte} {m m' : Memory} (hwf : Memory.wf ((a', v') :: m'))
    (h : Memory.read ((a, v) :: m) a = Memory.read ((a', v') :: m') a) : a' ≤ a := by
  by_contra hlt
  obtain ⟨hfirst, -⟩ := List.pairwise_cons.mp hwf
  have hnone : Memory.read ((a', v') :: m') a = none := read_eq_none_of_lt <| List.forall_mem_cons.mpr
    ⟨Nat.lt_of_not_le hlt, fun c hc => (Nat.lt_of_not_le hlt).trans (hfirst c hc)⟩
  rw [read_cons_self, hnone] at h
  cases h

/-- Settles O60: the first cells agree, since each is the least that reads as a byte, and so do the rests. -/
theorem equalReadsAreEqualBuffers : Obligations.EqualReadsAreEqualBuffers := by
  intro m
  induction m with
  | nil =>
    intro m' _ _ h
    cases m' with
    | nil => rfl
    | cons c rest => simpa [Memory.read] using h c.1
  | cons c rest ih =>
    intro m' hm hm' h
    obtain ⟨a, v⟩ := c
    cases m' with
    | nil => simpa [Memory.read] using h a
    | cons c' rest' =>
      obtain ⟨a', v'⟩ := c'
      obtain rfl : a = a' := le_antisymm (le_of_read_eq hm (h a').symm) (le_of_read_eq hm' (h a))
      obtain rfl : v = v' := by simpa using h a
      obtain ⟨hfirst, hrest⟩ := List.pairwise_cons.mp hm
      obtain ⟨hfirst', hrest'⟩ := List.pairwise_cons.mp hm'
      refine congrArg _ (ih rest' hrest hrest' fun i => ?_)
      by_cases hi : i = a
      · rw [hi, read_eq_none_of_lt hfirst, read_eq_none_of_lt hfirst']
      · rw [← read_cons_of_ne hi v, h i, read_cons_of_ne hi]

end Sys2Proof.Machine
